-- ==== Sys2Proof/Word.lean ====
section
/-! DEFINITION. The two sizes of bit vector the spec uses: the command word and the sample. -/

namespace Sys2Proof

/-- A command word: 32 bits, bit 31 the most significant (R11, R80). -/
abbrev Word := BitVec 32

/-- A sample, and one cell of the plane store: "an unsigned 8-bit integer, value range 0-255" (R9, R53). -/
abbrev Sample := BitVec 8

end Sys2Proof
end

