-- ==== Sys2Proof/Syntax.lean ====
section
/-! DEFINITION. The twenty commands of the CORE (R83), one constructor per row of the opcode table. Operands are the
mathematical integers the rules speak of (R82); their ranges are in WellFormed.lean. -/

namespace Sys2Proof

/-- A command (R83). The operand names are those of the command's own rule. -/
inductive Instr where
  /-- NOP (R190) -/
  | nop
  /-- CLRERR (R191) -/
  | clrerr
  /-- BS.CLEAR (R110) -/
  | bsClear
  /-- BS.REWIND (R111) -/
  | bsRewind
  /-- BS.WBIT bit (R112) -/
  | bsWbit (bit : Bool)
  /-- BS.WBITS n, v (R113) -/
  | bsWbits (n v : Nat)
  /-- BS.RBIT (R114) -/
  | bsRbit
  /-- BS.RBITS n (R115) -/
  | bsRbits (n : Nat)
  /-- BS.FLUSH (R116) -/
  | bsFlush
  /-- BS.TRUNC n (R117) -/
  | bsTrunc (n : Nat)
  /-- RC.SETM m (R145) -/
  | rcSetm (m : Nat)
  /-- RC.ENC value (R146) -/
  | rcEnc (value : Int)
  /-- RC.DEC (R147) -/
  | rcDec
  /-- PR.PRED row, col (R166) -/
  | prPred (row col : Nat)
  /-- PL.SETDIM rows, cols (R179) -/
  | plSetdim (rows cols : Nat)
  /-- PL.ENC (R180) -/
  | plEnc
  /-- PL.DEC (R181) -/
  | plDec
  /-- PL.SEEK addr (R182) -/
  | plSeek (addr : Nat)
  /-- PL.PUT sample (R183) -/
  | plPut (sample : Sample)
  /-- PL.GET (R184) -/
  | plGet
deriving DecidableEq, Repr

end Sys2Proof
end

