-- ==== Sys2Proof/WellFormed.lean ====
section
/-! DEFINITION. When a command's operands fit the fields of its format (R81, R82). A check made at execution (such as
`n ≤ 16`, R86) is no matter of form: a word with `n = 17` decodes, and the command completes with IllegalCommand. -/

namespace Sys2Proof

/-- Every operand is a value its field of the command word can hold (R81, R82). -/
def Instr.wf : Instr → Bool
  | .nop => true
  | .clrerr => true
  | .bsClear => true
  | .bsRewind => true
  | .bsWbit _ => true
  | .bsWbits n v => decide (n < 2 ^ 8) && decide (v < 2 ^ 16)
  | .bsRbit => true
  | .bsRbits n => decide (n < 2 ^ 8)
  | .bsFlush => true
  | .bsTrunc n => decide (n < 2 ^ 24)
  | .rcSetm m => decide (m < 2 ^ 24)
  | .rcEnc value => decide (-(2 ^ 23) ≤ value) && decide (value < 2 ^ 23)
  | .rcDec => true
  | .prPred row col => decide (row < 2 ^ 12) && decide (col < 2 ^ 12)
  | .plSetdim rows cols => decide (rows < 2 ^ 12) && decide (cols < 2 ^ 12)
  | .plEnc => true
  | .plDec => true
  | .plSeek addr => decide (addr < 2 ^ 24)
  | .plPut _ => true
  | .plGet => true

end Sys2Proof
end

