-- ==== Sys2Proof/Decode.lean ====
section
/-! DEFINITION. Command words: the decoder (R80 to R86), total on the 2^32 words, the encoder, the opcode table's
masks and matches (R84), and the host's `decodeTableWord`. -/

namespace Sys2Proof

/-- `cmd[hi:lo]`: "the unsigned integer made of bits `hi` down to `lo`" (R11). -/
def field (w : Word) (hi lo : Nat) : Nat :=
  w.toNat / 2 ^ lo % 2 ^ (hi + 1 - lo)

/-- `sext_n(v)`: the `n`-bit field `v` read as two's complement (R11). -/
def sext (n v : Nat) : Int :=
  if v < 2 ^ (n - 1) then (v : Int) else (v : Int) - 2 ^ n

/-- The formats of R81, by their letters. -/
inductive Format where
  | N | B | G | C | U | S | D | P
deriving DecidableEq, Repr

/-- Why a word is illegal (R85). -/
inductive IllegalWord where
  /-- its opcode is none of the twenty of R83 -/
  | undefinedOpcode
  /-- a must-be-zero bit of its format is 1 -/
  | reservedBits
deriving DecidableEq, Repr

/-- What decoding a word gives: one command, or the reason the word is illegal (R84). -/
inductive Decoded where
  | command (i : Instr)
  | illegal (why : IllegalWord)
deriving DecidableEq, Repr

/-- The must-be-zero bits of the format are all 0 (R81). -/
def reservedZero (f : Format) (w : Word) : Bool :=
  match f with
  | .N => field w 23 0 == 0
  | .B => field w 23 1 == 0
  | .C => field w 15 0 == 0
  | .P => field w 23 8 == 0
  | .G => true
  | .U => true
  | .S => true
  | .D => true

/-- The command `i` of format `f`, if the word's reserved bits are 0 (R84, R85). -/
def checked (f : Format) (w : Word) (i : Instr) : Decoded :=
  if reservedZero f w then .command i else .illegal .reservedBits

/-- Decoding a word: first the opcode, then the reserved bits, then the operands (R83, R84). -/
def decode (w : Word) : Decoded :=
  match field w 31 24 with
  | 0x00 => checked .N w .nop
  | 0x01 => checked .N w .clrerr
  | 0x10 => checked .N w .bsClear
  | 0x11 => checked .N w .bsRewind
  | 0x12 => checked .B w (.bsWbit (field w 0 0 == 1))
  | 0x13 => checked .G w (.bsWbits (field w 23 16) (field w 15 0))
  | 0x14 => checked .N w .bsRbit
  | 0x15 => checked .C w (.bsRbits (field w 23 16))
  | 0x16 => checked .N w .bsFlush
  | 0x17 => checked .U w (.bsTrunc (field w 23 0))
  | 0x20 => checked .U w (.rcSetm (field w 23 0))
  | 0x21 => checked .S w (.rcEnc (sext 24 (field w 23 0)))
  | 0x22 => checked .N w .rcDec
  | 0x30 => checked .D w (.prPred (field w 23 12) (field w 11 0))
  | 0x40 => checked .D w (.plSetdim (field w 23 12) (field w 11 0))
  | 0x41 => checked .N w .plEnc
  | 0x42 => checked .N w .plDec
  | 0x43 => checked .U w (.plSeek (field w 23 0))
  | 0x44 => checked .P w (.plPut (BitVec.ofNat 8 (field w 7 0)))
  | 0x45 => checked .N w .plGet
  | _ => .illegal .undefinedOpcode

/-- A word of an opcode and a 24-bit immediate (R80). -/
def commandWord (op imm : Nat) : Word :=
  BitVec.ofNat 32 (op * 2 ^ 24 + imm)

/-- The word of a well-formed command, from the Encoding line of the command's own rule. -/
def encode : Instr → Word
  | .nop => commandWord 0x00 0
  | .clrerr => commandWord 0x01 0
  | .bsClear => commandWord 0x10 0
  | .bsRewind => commandWord 0x11 0
  | .bsWbit bit => commandWord 0x12 bit.toNat
  | .bsWbits n v => commandWord 0x13 (n * 2 ^ 16 + v)
  | .bsRbit => commandWord 0x14 0
  | .bsRbits n => commandWord 0x15 (n * 2 ^ 16)
  | .bsFlush => commandWord 0x16 0
  | .bsTrunc n => commandWord 0x17 n
  | .rcSetm m => commandWord 0x20 m
  | .rcEnc value => commandWord 0x21 (value % 2 ^ 24).toNat
  | .rcDec => commandWord 0x22 0
  | .prPred row col => commandWord 0x30 (row * 2 ^ 12 + col)
  | .plSetdim rows cols => commandWord 0x40 (rows * 2 ^ 12 + cols)
  | .plEnc => commandWord 0x41 0
  | .plDec => commandWord 0x42 0
  | .plSeek addr => commandWord 0x43 addr
  | .plPut sample => commandWord 0x44 sample.toNat
  | .plGet => commandWord 0x45 0

/-- The opcode table's (mask, match) pairs, in its order: a word is the row's command exactly when
`(cmd AND mask) = match` (R84). The decoder above does not use it: it is a second transcription to hold it against. -/
def opcodeTable : List (Word × Word) :=
  [ (0xFFFFFFFF#32, 0x00000000#32), (0xFFFFFFFF#32, 0x01000000#32), (0xFFFFFFFF#32, 0x10000000#32),
    (0xFFFFFFFF#32, 0x11000000#32), (0xFFFFFFFE#32, 0x12000000#32), (0xFF000000#32, 0x13000000#32),
    (0xFFFFFFFF#32, 0x14000000#32), (0xFF00FFFF#32, 0x15000000#32), (0xFFFFFFFF#32, 0x16000000#32),
    (0xFF000000#32, 0x17000000#32) ] ++
  [ (0xFF000000#32, 0x20000000#32), (0xFF000000#32, 0x21000000#32), (0xFFFFFFFF#32, 0x22000000#32),
    (0xFF000000#32, 0x30000000#32), (0xFF000000#32, 0x40000000#32), (0xFFFFFFFF#32, 0x41000000#32),
    (0xFFFFFFFF#32, 0x42000000#32), (0xFF000000#32, 0x43000000#32), (0xFFFFFF00#32, 0x44000000#32),
    (0xFFFFFFFF#32, 0x45000000#32) ]

/-- The word whose low `nbits` bits are those of `w` and whose other bits are 0. -/
def tableWord (nbits w : Nat) : Word :=
  BitVec.ofNat 32 (w % 2 ^ nbits)

/-- What the decoder reads from the instruction whose bits are `w`, numbered as the opcode table numbers them: a
command is one 32-bit word with bit 0 least significant (R11, R80), so the numbering is the word's own. -/
def decodeTableWord (nbits w : Nat) : Option Instr :=
  match decode (tableWord nbits w) with
  | .command i => some i
  | .illegal _ => none

end Sys2Proof
end

