-- ==== Sys2Proof/Config.lean ====
section
/-! DEFINITION. What is fixed for the life of the hardware: the open parameters of R9, the numbers R9 fixes, and
the free value of a plane cell that nothing has written. -/

namespace Sys2Proof.Config

/-- `M_MAX`, the largest Golomb parameter RC.SETM can set (R9). -/
def mMax : Nat := 2 ^ 24 - 1

/-- `DIM_MAX`, the largest `rows` or `cols` PL.SETDIM can set (R9). -/
def dimMax : Nat := 4095

/-- `GROUP_MAX`, the largest bit group BS.WBITS and BS.RBITS move (R9). -/
def groupMax : Nat := 16

/-- The largest value the open parameter `PLANE_CAP` may take (R50, decision D4). -/
def planeCapMax : Nat := 2 ^ 24

/-- The OPEN parameters of R9, "arguments the model takes", each at the default R9 gives it. They are no state of
the CORE (R21): the model carries them in State only so that every statement holds for every choice of them (log 6). -/
structure Params where
  /-- `PLANE_CAP`, the number of cells of the plane store, at most `2^24`. -/
  planeCap : Nat := 2 ^ 24
  /-- `STREAM_CAP`, the number of bits the stream store can hold; `none` is unbounded; when finite, a multiple of 8. -/
  streamCap : Option Nat := none
  /-- `VAL_BITS`, the width of the signed value domain and of RESULT; `none` is unbounded (the integers). -/
  valBits : Option Nat := none
deriving DecidableEq, Repr

/-- FREE VALUE (log 4; U1 of 93_implementation_defined.md: "takes the initial contents as a `parameter` (one byte per
cell, arbitrary, fixed at reset)"). What plane cell `addr` holds until something writes it, after the `epoch`-th reset
event. It has no body: nothing can be proved of its value. -/
opaque unwrittenCell (epoch addr : Nat) : Sample

end Sys2Proof.Config
end

