-- ==== Sys2Proof/Machine/State.lean ====
section
/-! DEFINITION. The state of the CORE (R20), the reasons a step can stop, and the state after reset (R43, R241). -/

namespace Sys2Proof.Machine

/-- The seven ways a command completes (R35, R216); U4 allows the field LAST to be typed so (log 8). Their numbers are
`Status.code`. -/
inductive Status where
  | ok | invalidParameter | incompleteStream | geometryMismatch | endOfStream | illegalCommand | streamFull
deriving DecidableEq, Repr

/-- What the host does to the CORE, one thing at a time: it presents a command word (R192) or resets the CORE between
commands (R240). Reading registers changes nothing (R193), so it is no event. -/
inductive HostEvent where
  | command (w : Word)
  | reset
deriving DecidableEq, Repr

/-- The plane store `P` (R28): the WRITTEN cells, as (address, value) pairs in strictly rising order of address. A
cell that is not listed has not been written since reset and holds no defined value (R55, log 4). -/
abbrev Memory := List Host.Cell

/-- No fault exists: "There is no state in which the CORE stops accepting commands: no halt, no lock-up, no fatal error"
(R227). Every condition of the spec is a completion with a status code (R215), hence a next state; nothing raises a
fault, and that is safe. -/
inductive Fault where
deriving DecidableEq, Repr

/-- Why the model gives a command no next state. -/
inductive Refusal where
  /-- Raised by an arm of `exec` whose command has no meaning yet (none at present). Safe: nothing is claimed. -/
  | notModelled (mnemonic : String)
  /-- Raised by a command that computes a value outside the signed value domain when VAL_BITS is finite: "with a finite
  value, `refuse` any command whose intermediate or final value does not fit" (U6). With the default, unbounded VAL_BITS
  it never happens. Safe: nothing is claimed of such a command (log 7). -/
  | valueOutsideDomain
deriving DecidableEq, Repr

/-- Everything the CORE holds (R20), and after it the model's own three fields. -/
structure State where
  /-- `M`, the Golomb parameter; 0 means "not set" (R22). -/
  m : Nat
  /-- `B`, the truncated-binary bit count (R23). -/
  b : Nat
  /-- `U`, the truncated-binary threshold (R24). -/
  u : Nat
  /-- `ROWS` (R26). -/
  rows : Nat
  /-- `COLS` (R27). -/
  cols : Nat
  /-- `P`, the plane store (R28). -/
  plane : Memory
  /-- `PADDR`, the cell the next PL.PUT or PL.GET reaches (R29). -/
  paddr : Nat
  /-- `S`, "a list of exactly `SLEN` bits" (R30, R31, U12). -/
  stream : List Bool
  /-- `RPOS`, the index of the next bit a read returns (R32). -/
  rpos : Nat
  /-- `STATUS.LAST` (R35). -/
  last : Status
  /-- `STATUS.MIDSYM` (R36). -/
  midsym : Bool
  /-- `STATUS.ERRS` (R37). -/
  errs : BitVec 8
  /-- `RESULT`, a signed integer (R38). -/
  result : Int
  /-- `COUNT` (R39). -/
  count : Nat
  /-- The model's own: the open parameters of R9, which nothing changes (R21, log 6). -/
  params : Config.Params
  /-- The model's own: how many reset events have happened, which selects the free values of unwritten cells (log 5). -/
  resetCount : Nat
  /-- The model's own: what the host is still to do, in order (log 1). -/
  host : List HostEvent
deriving DecidableEq, Repr

/-- The machine right after reset, with the default parameters of R9 (R43, R241, R242): every register 0, no cell of
the plane store written, the stream empty. -/
def State.reset : State :=
  { m := 0, b := 0, u := 0, rows := 0, cols := 0, plane := [], paddr := 0, stream := [], rpos := 0,
    last := .ok, midsym := false, errs := 0, result := 0, count := 0,
    params := {}, resetCount := 0, host := [] }

end Sys2Proof.Machine
end

