-- ==== Sys2Proof/Machine/Flags.lean ====
section
/-! DEFINITION. The status register: the codes (R216), the three fields a completion writes (R215, R35 to R37), and
STATUS as the host reads it (R34). The CORE has no arithmetic condition flags (R34). -/

namespace Sys2Proof.Machine

/-- The number of a status code (R216). -/
def Status.code : Status → Nat
  | .ok => 0
  | .invalidParameter => 1
  | .incompleteStream => 2
  | .geometryMismatch => 3
  | .endOfStream => 4
  | .illegalCommand => 5
  | .streamFull => 6

/-- `MIDSYM` after a completion with `c`: "1 if (c = IncompleteStream and the stream ended inside a symbol) else 0"
(R215). -/
def midsymAfter (c : Status) (insideSymbol : Bool) : Bool :=
  decide (c = .incompleteStream) && insideSymbol

/-- `ERRS` after a completion with `c`: "if c ≠ 0: ERRS[c] <- 1 — sticky; bits of other codes keep their value"
(R215). -/
def errsAfter (c : Status) (errs : BitVec 8) : BitVec 8 :=
  if c = .ok then errs else errs ||| BitVec.ofNat 8 (2 ^ c.code)

/-- `STATUS`, register 0: LAST in bits 3:0, MIDSYM in bit 4, ERRS in bits 15:8, the other bits 0 (R34). -/
def statusWord (s : State) : Word :=
  BitVec.ofNat 32 (s.last.code + 2 ^ 4 * s.midsym.toNat + 2 ^ 8 * s.errs.toNat)

end Sys2Proof.Machine
end

