-- ==== Sys2Proof/Machine/Operands.lean ====
section
/-! DEFINITION. Operands: the ranges checked at execution (R86) and the place of a sample in the plane (R51, R170). -/

namespace Sys2Proof.Machine

/-- BS.WBITS and BS.RBITS "need `n ≤ 16`" (R86). -/
def groupLegal (n : Nat) : Bool :=
  decide (n ≤ Config.groupMax)

/-- BS.TRUNC "needs `u24 ≤ SLEN`" (R86). -/
def truncLegal (n : Nat) (s : State) : Bool :=
  decide (n ≤ s.stream.length)

/-- RC.SETM "needs `u24 ≥ 1`" (R86). -/
def parameterLegal (m : Nat) : Bool :=
  decide (1 ≤ m)

/-- PL.SETDIM "needs `hi * lo ≤ PLANE_CAP`" (R86). -/
def geometryLegal (rows cols : Nat) (s : State) : Bool :=
  decide (rows * cols ≤ s.params.planeCap)

/-- PL.PUT and PL.GET "need `PADDR < PLANE_CAP`" (R86). -/
def paddrLegal (s : State) : Bool :=
  decide (s.paddr < s.params.planeCap)

/-- The coding commands need a parameter: `M ≥ 1` (R217, step 4 of R223). -/
def parameterSet (s : State) : Bool :=
  decide (1 ≤ s.m)

/-- The group BS.WBITS writes: "only the low `n` bits of `v` are used, `v mod 2^n`" (R82). -/
def groupValue (n v : Nat) : Nat :=
  v % 2 ^ n

/-- `N = ROWS * COLS`, the number of positions of the plane (R170). -/
def State.positions (s : State) : Nat :=
  s.rows * s.cols

/-- The row of position `k` in raster order, `k div COLS` (R51, R170). -/
def State.rowOf (s : State) (k : Nat) : Nat :=
  k / s.cols

/-- The column of position `k` in raster order, `k mod COLS` (R51, R170). -/
def State.colOf (s : State) (k : Nat) : Nat :=
  k % s.cols

end Sys2Proof.Machine
end

