-- ==== Sys2Proof/Machine/Ops.lean ====
section
/-! DEFINITION. The operations every command is made of: the plane store (R50 to R55), the stream store (R56 to R59),
the value domain (R10, U6), completing a command, which is all that "taking" a condition is (R215, R225, R226), and the
host's side of a step (R192, R240). -/

namespace Sys2Proof.Machine

/-! The plane store. -/

/-- The canonical form of the plane store: addresses strictly rising. (No listed cell can equal an unlisted one: an
unlisted cell has no defined value at all.) -/
abbrev Memory.wf (p : Memory) : Prop :=
  p.Pairwise fun x y => x.1 < y.1

/-- The value of a WRITTEN cell; `none` for a cell nothing has written since reset, which "holds no defined value"
(R55). This is what an unlisted address reads as. -/
def Memory.read? (p : Memory) (a : Nat) : Option Sample :=
  match p with
  | [] => none
  | c :: rest => if c.1 = a then some c.2 else Memory.read? rest a

/-- `P[a] <- v`: the pairs stay in strictly rising order (R13, R53). -/
def Memory.write (p : Memory) (a : Nat) (v : Sample) : Memory :=
  match p with
  | [] => [(a, v)]
  | c :: rest =>
    if a < c.1 then (a, v) :: c :: rest
    else if a = c.1 then (a, v) :: rest
    else c :: Memory.write rest a v

/-- `for k = 0 .. n-1: P[k] <- 0`, the zero fill of PL.DEC (R173). -/
def Memory.zeroFill (n : Nat) (p : Memory) : Memory :=
  match n with
  | 0 => p
  | k + 1 => Memory.write (Memory.zeroFill k p) k 0

/-- `P[a]`: a written cell's value; for a cell never written, its free value (R55, U1, log 4). -/
def State.cell (s : State) (a : Nat) : Sample :=
  (Memory.read? s.plane a).getD (Config.unwrittenCell s.resetCount a)

/-- `P[a] <- v` (R13). -/
def State.writeCell (s : State) (a : Nat) (v : Sample) : State :=
  { s with plane := Memory.write s.plane a v }

/-- `PlaneRead(row, col)`, for any integers: the cell `P[row * COLS + col]` in bounds, 0 otherwise (R52). -/
def State.planeRead (s : State) (row col : Int) : Int :=
  if 0 ≤ row ∧ row < s.rows ∧ 0 ≤ col ∧ col < s.cols then
    ((s.cell (row * s.cols + col).toNat).toNat : Int)
  else 0

/-! The stream store. -/

/-- `SLEN`, the stream length in bits (R31). -/
def State.slen (s : State) : Nat :=
  s.stream.length

/-- The bits `S[RPOS]` to `S[SLEN − 1]`, which reads will return, in order (R32). -/
def State.unread (s : State) : List Bool :=
  s.stream.drop s.rpos

/-- The reads so far of `unread` have left `rest`: RPOS has advanced by one for each bit they returned (R58). -/
def State.consumeTo (s : State) (rest : List Bool) : State :=
  { s with rpos := s.rpos + (s.unread.length - rest.length) }

/-- A write of `n` bits leaves SLEN at most STREAM_CAP (R68, R222). -/
def State.roomFor (s : State) (n : Nat) : Bool :=
  match s.params.streamCap with
  | none => true
  | some cap => decide (s.slen + n ≤ cap)

/-- `PutBit` of each bit, in order: appended at SLEN, RPOS unchanged (R56). -/
def State.append (s : State) (bits : List Bool) : State :=
  { s with stream := s.stream ++ bits }

/-- The bits `PutBits(n, v)` writes: the `n`-bit group `v`, most significant bit first (R57). -/
def putBits (n v : Nat) : List Bool :=
  match n with
  | 0 => []
  | i + 1 => decide (v / 2 ^ i % 2 = 1) :: putBits i v

/-- `GetBit()`: the first of the bits left and the bits after it, or EOS, which is `none` (R58). -/
def getBit (bits : List Bool) : Option (Bool × List Bool) :=
  match bits with
  | [] => none
  | t :: rest => some (t, rest)

/-- The loop of `GetBits`: `n` more bits after a group read so far as `x`, first bit most significant (R59). -/
def getBitsFrom (x n : Nat) (bits : List Bool) : Option (Nat × List Bool) :=
  match n with
  | 0 => some (x, bits)
  | i + 1 =>
    match getBit bits with
    | none => none
    | some (t, rest) => getBitsFrom (2 * x + t.toNat) i rest

/-- `GetBits(n)`: the group and the bits after it, or EOS when fewer than `n` are left; then all of them are consumed
(R59). -/
def getBits (n : Nat) (bits : List Bool) : Option (Nat × List Bool) :=
  getBitsFrom 0 n bits

/-- The number of zero bits BS.FLUSH appends: `(8 - (SLEN mod 8)) mod 8` (R116). -/
def padLength (slen : Nat) : Nat :=
  (8 - slen % 8) % 8

/-! The value domain. -/

/-- The value is in the signed domain of VAL_BITS bits; with VAL_BITS unbounded every integer is (R10, D6). -/
def fitsDomain (p : Config.Params) (v : Int) : Bool :=
  match p.valBits with
  | none => true
  | some n => decide (-(2 ^ n) ≤ 2 * v) && decide (2 * v < 2 ^ n)

/-- Every value of the list is in the domain. -/
def valuesFit (p : Config.Params) (vs : List Int) : Bool :=
  vs.all (fitsDomain p)

/-- What a command answers: Host.Outcome over this machine's own types. -/
abbrev Answer := Host.Outcome State Fault Refusal

/-- The command goes on as `k` when the values it has just computed fit; with a finite VAL_BITS and a value that does
not fit it is refused (U6, log 7). -/
def withValues (s : State) (vs : List Int) (k : Answer) : Answer :=
  if valuesFit s.params vs then k else .refused .valueOutsideDomain

/-! Completing a command. -/

/-- How every command completes, with code `c`: LAST, MIDSYM and ERRS are written and nothing else happens (R215). This
is the whole of "taking" a condition (R225); no return from it exists (R226). -/
def State.complete (s : State) (c : Status) (insideSymbol : Bool) : State :=
  { s with last := c, midsym := midsymAfter c insideSymbol, errs := errsAfter c s.errs }

/-- `end OK` (R215). -/
def succeed (s : State) : Answer :=
  .next (s.complete .ok false)

/-- `raise c`: the command stops and completes with code `c` (R215). -/
def raise (c : Status) (s : State) : Answer :=
  .next (s.complete c false)

/-- `raise IncompleteStream` with MIDSYM as given (R181, R218). -/
def raiseIncomplete (insideSymbol : Bool) (s : State) : Answer :=
  .next (s.complete .incompleteStream insideSymbol)

/-- A word that is no command "changes no state except that the command ends with `LAST = IllegalCommand` (code 5) and
`ERRS[5]` set" (R85, R221). -/
def illegalWord (s : State) : Answer :=
  raise .illegalCommand s

/-! The host's side of a step. -/

/-- What the CORE finds at its ports when it is ready for the next command (R192, R240). -/
inductive Fetched where
  /-- the host presents nothing: the CORE waits (log 2) -/
  | waiting
  /-- the host resets the CORE -/
  | reset
  /-- the host presents a command word -/
  | command (w : Word)
deriving DecidableEq, Repr

/-- The host's next action. -/
def fetch (s : State) : Fetched :=
  match s.host with
  | [] => .waiting
  | .reset :: _ => .reset
  | .command w :: _ => .command w

/-- The host's next action has been taken: "A command word is used once, when issued" (R73). -/
def State.taken (s : State) : State :=
  { s with host := s.host.tail }

/-- The one reset (R240, R241): every register and the stream as State.reset has them, every cell of P unspecified
again (R242); the parameters are no state (R21) and the host's list is the host's. -/
def State.afterReset (s : State) : State :=
  { State.reset with params := s.params, resetCount := s.resetCount + 1, host := s.host }

end Sys2Proof.Machine
end

