-- ==== Sys2Proof/Machine/BitStream.lean ====
section
/-! DEFINITION. The bit-stream controller family (40_bitstream.md): the eight BS commands. -/

namespace Sys2Proof.Machine

/-- BS.CLEAR (R110). -/
def execBsClear (s : State) : Answer :=
  succeed { s with stream := [], rpos := 0 }

/-- BS.REWIND (R111). -/
def execBsRewind (s : State) : Answer :=
  succeed { s with rpos := 0 }

/-- BS.WBIT bit (R112). -/
def execBsWbit (bit : Bool) (s : State) : Answer :=
  if s.roomFor 1 then succeed (s.append [bit]) else raise .streamFull s

/-- BS.WBITS n, v (R113). -/
def execBsWbits (n v : Nat) (s : State) : Answer :=
  if groupLegal n then
    if s.roomFor n then succeed (s.append (putBits n (groupValue n v))) else raise .streamFull s
  else raise .illegalCommand s

/-- BS.RBIT (R114). -/
def execBsRbit (s : State) : Answer :=
  match getBit s.unread with
  | none => raise .endOfStream s
  | some (t, rest) =>
    withValues s [(t.toNat : Int)] (succeed { s.consumeTo rest with result := (t.toNat : Int) })

/-- BS.RBITS n (R115); at a group cut short every bit left is consumed (R59), and with a finite VAL_BITS the
part of it read so far is not checked: DESIGN CHOICE, unsafe (log 14). -/
def execBsRbits (n : Nat) (s : State) : Answer :=
  if groupLegal n then
    match getBits n s.unread with
    | none => raise .endOfStream (s.consumeTo [])
    | some (x, rest) =>
      withValues s [(x : Int)] (succeed { s.consumeTo rest with result := (x : Int) })
  else raise .illegalCommand s

/-- BS.FLUSH (R116). -/
def execBsFlush (s : State) : Answer :=
  if s.roomFor (padLength s.slen) then succeed (s.append (putBits (padLength s.slen) 0))
  else raise .streamFull s

/-- BS.TRUNC n (R117). -/
def execBsTrunc (n : Nat) (s : State) : Answer :=
  if truncLegal n s then succeed { s with stream := s.stream.take n, rpos := min s.rpos n }
  else raise .illegalCommand s

end Sys2Proof.Machine
end

