-- ==== Sys2Proof/Machine/Control.lean ====
section
/-! DEFINITION. The control family (44_control.md): NOP and CLRERR. -/

namespace Sys2Proof.Machine

/-- NOP (R190): `LAST` and `MIDSYM` are written, `ERRS` keeps its bits. -/
def execNop (s : State) : Answer :=
  succeed s

/-- CLRERR (R191): "`ERRS <- 0; end OK`". -/
def execClrerr (s : State) : Answer :=
  succeed { s with errs := 0 }

end Sys2Proof.Machine
end

