-- ==== Sys2Proof/Machine/Predictor.lean ====
section
/-! DEFINITION. The causal predictor family (42_predictor.md): the median-edge-detector rule and PR.PRED. -/

namespace Sys2Proof.Machine

/-- The prediction rule on the three neighbours: left `a`, top `b`, top-left `c`, the tests in this order, no reduction
modulo 256 (R162). -/
def medianEdge (a b c : Int) : Int :=
  if c ≥ max a b then min a b
  else if c ≤ min a b then max a b
  else a + b - c

/-- The left neighbour `A` (R160). -/
def State.leftOf (s : State) (row col : Nat) : Int :=
  s.planeRead row ((col : Int) - 1)

/-- The top neighbour `B` (R160). -/
def State.topOf (s : State) (row col : Nat) : Int :=
  s.planeRead ((row : Int) - 1) col

/-- The top-left neighbour `C` (R160). -/
def State.topLeftOf (s : State) (row col : Nat) : Int :=
  s.planeRead ((row : Int) - 1) ((col : Int) - 1)

/-- `Predict(row, col)` (R162). -/
def State.predict (s : State) (row col : Nat) : Int :=
  medianEdge (s.leftOf row col) (s.topOf row col) (s.topLeftOf row col)

/-- The values the prediction computes "in the wide signed domain": the prediction itself and, where the gradient
branch is taken, `A + B`, which "may reach 510" (R162, log 7). -/
def State.predictValues (s : State) (row col : Nat) : List Int :=
  let a := s.leftOf row col
  let b := s.topOf row col
  let c := s.topLeftOf row col
  if c ≥ max a b ∨ c ≤ min a b then [medianEdge a b c] else [a + b, medianEdge a b c]

/-- PR.PRED row, col (R166): total, also outside the plane and with M not set. -/
def execPrPred (row col : Nat) (s : State) : Answer :=
  withValues s (s.predictValues row col) (succeed { s with result := s.predict row col })

end Sys2Proof.Machine
end

