-- ==== Sys2Proof/Machine/Symbol.lean ====
section
/-! DEFINITION. The Golomb-Rice coder of one signed integer with a truncated-binary remainder (R12, R96 to R103, R130 to
R144), as functions on bits; the commands that use it are in Rice.lean and PlaneCodec.lean. -/

namespace Sys2Proof.Machine

/-- The search for the least `b' ≥ b` with `2^b' ≥ m`, over at most `fuel` candidates. -/
def leastPower (m fuel b : Nat) : Nat :=
  match fuel with
  | 0 => b
  | f + 1 => if m ≤ 2 ^ b then b else leastPower m f (b + 1)

/-- `clog2(m)`: "the least integer `b ≥ 0` with `2^b ≥ m`" (R12). -/
def clog2 (m : Nat) : Nat :=
  leastPower m m 0

/-- The parameters of one symbol: the divisor and the two numbers of the truncated binary code, which the registers M,
B, U hold (R22 to R24; "Read by the symbol encoder and decoder", log 9). -/
structure Rice where
  m : Nat
  b : Nat
  u : Nat
deriving DecidableEq, Repr

/-- `b = clog2(m)` and `u = 2^b − m` (R130). -/
def riceOf (m : Nat) : Rice :=
  { m := m, b := clog2 m, u := 2 ^ clog2 m - m }

/-- The parameters the registers hold. -/
def State.rice (s : State) : Rice :=
  { m := s.m, b := s.b, u := s.u }

/-- `q = magnitude div m` (R98, R135). -/
def quotient (c : Rice) (value : Int) : Nat :=
  value.natAbs / c.m

/-- `r = magnitude − q*m` (R99, R135). -/
def remainder (c : Rice) (value : Int) : Nat :=
  value.natAbs - quotient c value * c.m

/-- The bits `TBEncode(r, m)` writes (R131); no bits at all when `b = 0` (R133). -/
def remainderBits (c : Rice) (r : Nat) : List Bool :=
  if c.b = 0 then []
  else if r < c.u then putBits (c.b - 1) r
  else putBits c.b (r + c.u)

/-- The bits `EncodeSymbol(value, m)` writes: sign, quotient in unary, remainder (R96, R135). -/
def symbolBits (c : Rice) (value : Int) : List Bool :=
  decide (value < 0) ::
    (List.replicate (quotient c value) true ++ (false :: remainderBits c (remainder c value)))

/-- The length of the remainder field: 0, `b − 1` or `b` bits (R99, R142). -/
def remainderLength (c : Rice) (r : Nat) : Nat :=
  if c.b = 0 then 0 else if r < c.u then c.b - 1 else c.b

/-- `SymLen(value, m) = 2 + q + rb` (R142). -/
def symLen (c : Rice) (value : Int) : Nat :=
  2 + quotient c value + remainderLength c (remainder c value)

/-- What reading a symbol gives (R14): a value and the bits after it; EOS, nothing having been read; or INC, the stream
having ended inside the symbol, all its bits consumed. -/
inductive SymbolRead where
  | value (v : Int) (rest : List Bool)
  | endOfStream
  | incomplete
deriving DecidableEq, Repr

/-- Step 2 of `DecodeSymbol`: ones are counted on top of `q` until a zero is read; `none` when the bits end first
(R136, R138). -/
def takeUnary (q : Nat) (bits : List Bool) : Option (Nat × List Bool) :=
  match bits with
  | [] => none
  | false :: rest => some (q, rest)
  | true :: rest => takeUnary (q + 1) rest

/-- `TBDecode(m)`: the remainder and the bits after it, or EOS (R132). -/
def takeRemainder (c : Rice) (bits : List Bool) : Option (Nat × List Bool) :=
  if c.b = 0 then some (0, bits)
  else
    match getBits (c.b - 1) bits with
    | none => none
    | some (x, rest) =>
      if x < c.u then some (x, rest)
      else
        match getBit rest with
        | none => none
        | some (t, rest') => some (2 * x + t.toNat - c.u, rest')

/-- Step 4 of `DecodeSymbol`: the sign applied to the magnitude; `-0` is 0 (R136, R141). -/
def signed (sign : Bool) (magnitude : Nat) : Int :=
  if sign then -(magnitude : Int) else magnitude

/-- `DecodeSymbol(m)` on the bits left in the stream (R136 to R139). -/
def takeSymbol (c : Rice) (bits : List Bool) : SymbolRead :=
  match getBit bits with
  | none => .endOfStream
  | some (sign, afterSign) =>
    match takeUnary 0 afterSign with
    | none => .incomplete
    | some (q, afterUnary) =>
      match takeRemainder c afterUnary with
      | none => .incomplete
      | some (r, rest) => .value (signed sign (q * c.m + r)) rest

/-- The values of R10 that coding a symbol computes: `value`, `magnitude`, `q`, `r` (log 7). -/
def symbolValues (c : Rice) (value : Int) : List Int :=
  [value, (value.natAbs : Int), (quotient c value : Int), (remainder c value : Int)]

end Sys2Proof.Machine
end

