-- ==== Sys2Proof/Machine/PlaneCodec.lean ====
section
/-! DEFINITION. The plane codec family (43_plane.md): the two raster passes and the six PL commands. -/

namespace Sys2Proof.Machine

/-- The prediction at position `k` of the raster order (R170, R172, R173). -/
def State.predictAt (s : State) (k : Nat) : Int :=
  s.predict (s.rowOf k) (s.colOf k)

/-- The residual at position `k`: `P[k] − Predict(row, col)`, without any reduction (R171). -/
def State.residual (s : State) (k : Nat) : Int :=
  ((s.cell k).toNat : Int) - s.predictAt k

/-- `x mod 256` as the 8-bit value a cell holds, for any integer `x` (R11, R174). -/
def wrapSample (x : Int) : Sample :=
  BitVec.ofNat 8 (x % 256).toNat

/-- Position `k` of the encode pass is done: its symbol is appended and COUNT is `k + 1` (R172, R180). -/
def State.encodedAt (s : State) (k : Nat) : State :=
  { s.append (symbolBits s.rice (s.residual k)) with count := k + 1 }

/-- The loop of PL.ENC over the `n` positions from `k` on (R172, R180). A symbol that does not fit the stream ends the
pass before its first bit (R222). -/
def encodePass (n k : Nat) (s : State) : Answer :=
  match n with
  | 0 => succeed s
  | n' + 1 =>
    withValues s
      (s.predictValues (s.rowOf k) (s.colOf k) ++ symbolValues s.rice (s.residual k))
      (if s.roomFor (symLen s.rice (s.residual k)) then encodePass n' (k + 1) (s.encodedAt k)
       else raise .streamFull s)

/-- Position `k` of the decode pass is done: the symbol's bits up to `rest` are consumed, the cell holds
`(predicted + d) mod 256` and COUNT is `k + 1` (R173, R174, R181). -/
def State.decodedAt (s : State) (k : Nat) (d : Int) (rest : List Bool) : State :=
  { (s.consumeTo rest).writeCell k (wrapSample (s.predictAt k + d)) with count := k + 1 }

/-- The loop of PL.DEC over the `n` positions from `k` on: the symbol first, then the prediction from the plane built so
far (R173, R181). The end of the stream stops the pass at once (R175). A symbol cut short has no value, and with a finite
VAL_BITS nothing of it is checked, not even the ones already counted in `q`: DESIGN CHOICE, unsafe (log 14). -/
def decodePass (n k : Nat) (s : State) : Answer :=
  match n with
  | 0 => succeed s
  | n' + 1 =>
    match takeSymbol s.rice s.unread with
    | .endOfStream => raiseIncomplete false s
    | .incomplete => raiseIncomplete true (s.consumeTo [])
    | .value d rest =>
      withValues s
        (symbolValues s.rice d ++ s.predictValues (s.rowOf k) (s.colOf k) ++ [s.predictAt k + d])
        (decodePass n' (k + 1) (s.decodedAt k d rest))

/-- PL.SETDIM rows, cols (R179). -/
def execPlSetdim (rows cols : Nat) (s : State) : Answer :=
  if geometryLegal rows cols s then succeed { s with rows := rows, cols := cols }
  else raise .geometryMismatch s

/-- PL.ENC (R180). -/
def execPlEnc (s : State) : Answer :=
  if parameterSet s then encodePass s.positions 0 { s with count := 0 }
  else raise .invalidParameter s

/-- PL.DEC (R181): the zero fill happens first and completely (R173). -/
def execPlDec (s : State) : Answer :=
  if parameterSet s then
    decodePass s.positions 0 { s with plane := Memory.zeroFill s.positions s.plane, count := 0 }
  else raise .invalidParameter s

/-- PL.SEEK addr (R182): any address is accepted. -/
def execPlSeek (addr : Nat) (s : State) : Answer :=
  succeed { s with paddr := addr }

/-- PL.PUT sample (R183). -/
def execPlPut (sample : Sample) (s : State) : Answer :=
  if paddrLegal s then succeed { s.writeCell s.paddr sample with paddr := s.paddr + 1 }
  else raise .illegalCommand s

/-- PL.GET (R184); a cell never written gives its free value and the command completes OK (R231, R244). -/
def execPlGet (s : State) : Answer :=
  if paddrLegal s then
    withValues s [((s.cell s.paddr).toNat : Int)]
      (succeed { s with result := ((s.cell s.paddr).toNat : Int), paddr := s.paddr + 1 })
  else raise .illegalCommand s

end Sys2Proof.Machine
end

