-- ==== Sys2Proof/Machine/Rice.lean ====
section
/-! DEFINITION. The Golomb-Rice coder family (41_rice.md): RC.SETM, RC.ENC, RC.DEC. -/

namespace Sys2Proof.Machine

/-- RC.SETM m (R145): "`M <- m; B <- clog2(M); U <- 2^B - M`", or InvalidParameter with M, B, U unchanged. -/
def execRcSetm (m : Nat) (s : State) : Answer :=
  if parameterLegal m then
    succeed { s with m := (riceOf m).m, b := (riceOf m).b, u := (riceOf m).u }
  else raise .invalidParameter s

/-- RC.ENC value (R146). -/
def execRcEnc (value : Int) (s : State) : Answer :=
  if parameterSet s then
    withValues s (symbolValues s.rice value)
      (if s.roomFor (symLen s.rice value) then succeed (s.append (symbolBits s.rice value))
       else raise .streamFull s)
  else raise .invalidParameter s

/-- RC.DEC (R147). A symbol cut short has no value, and with a finite VAL_BITS nothing of it is checked, not even the
ones already counted in `q`: DESIGN CHOICE, unsafe (log 14). -/
def execRcDec (s : State) : Answer :=
  if parameterSet s then
    match takeSymbol s.rice s.unread with
    | .endOfStream => raise .endOfStream s
    | .incomplete => raiseIncomplete true (s.consumeTo [])
    | .value v rest =>
      withValues s (symbolValues s.rice v) (succeed { s.consumeTo rest with result := v })
  else raise .invalidParameter s

end Sys2Proof.Machine
end

