-- ==== Sys2Proof/Machine/Dispatch.lean ====
section
/-! DEFINITION. One arm per command: each calls the command's own meaning. -/

namespace Sys2Proof.Machine

/-- What a command does in a state. -/
def exec (i : Instr) (s : State) : Host.Outcome State Fault Refusal :=
  match i with
  | .nop => Sys2Proof.Machine.execNop s
  | .clrerr => Sys2Proof.Machine.execClrerr s
  | .bsClear => Sys2Proof.Machine.execBsClear s
  | .bsRewind => Sys2Proof.Machine.execBsRewind s
  | .bsWbit bit => Sys2Proof.Machine.execBsWbit bit s
  | .bsWbits n v => Sys2Proof.Machine.execBsWbits n v s
  | .bsRbit => Sys2Proof.Machine.execBsRbit s
  | .bsRbits n => Sys2Proof.Machine.execBsRbits n s
  | .bsFlush => Sys2Proof.Machine.execBsFlush s
  | .bsTrunc n => Sys2Proof.Machine.execBsTrunc n s
  | .rcSetm m => Sys2Proof.Machine.execRcSetm m s
  | .rcEnc value => Sys2Proof.Machine.execRcEnc value s
  | .rcDec => Sys2Proof.Machine.execRcDec s
  | .prPred row col => Sys2Proof.Machine.execPrPred row col s
  | .plSetdim rows cols => Sys2Proof.Machine.execPlSetdim rows cols s
  | .plEnc => Sys2Proof.Machine.execPlEnc s
  | .plDec => Sys2Proof.Machine.execPlDec s
  | .plSeek addr => Sys2Proof.Machine.execPlSeek addr s
  | .plPut sample => Sys2Proof.Machine.execPlPut sample s
  | .plGet => Sys2Proof.Machine.execPlGet s

end Sys2Proof.Machine
end

