-- ==== Sys2Proof/Machine/Step.lean ====
section
/-! DEFINITION. One step: the host's next action, taken whole (R7, R192), and the host's `withFetchWord`. -/

namespace Sys2Proof.Machine

/-- The CORE performs one command word completely: `step : State × Word32 → State` of R192. Every one of the 2^32 words
has its outcome; an illegal one completes with IllegalCommand (R85). -/
def runWord (w : Word) (s : State) : Host.Outcome State Fault Refusal :=
  match decode w with
  | .command i => exec i s
  | .illegal _ => illegalWord s

/-- One step of the machine: the host's next action is taken, and the CORE performs it. With nothing presented the CORE
waits and nothing changes (R241: "nothing executes by itself"; log 2). -/
def step (s : State) : Host.Outcome State Fault Refusal :=
  match fetch s with
  | .waiting => .next s
  | .reset => .next s.taken.afterReset
  | .command w => runWord w s.taken

/-- `s` with the instruction whose bits are `w` presented by the host as its next command word; what the host was to do
before stays behind it (log 1). -/
def State.withFetchWord (s : State) (nbits w : Nat) : State :=
  { s with host := .command (tableWord nbits w) :: s.host }

end Sys2Proof.Machine
end

