-- ==== Sys2Proof/Machine/Port.lean ====
section
/-! DEFINITION. What the host can see between commands: the register read port (R42, R193) and the byte view of the
stream (R60). Both are functions of the state and change nothing (R66). -/

namespace Sys2Proof.Machine

/-- `RegRead(n)`: the register map of R42. RESULT is returned as a signed integer, all others are non-negative; numbers
11 to 255 read 0 (R193). -/
def regRead (n : Nat) (s : State) : Int :=
  match n with
  | 0 => ((statusWord s).toNat : Int)
  | 1 => s.result
  | 2 => (s.count : Int)
  | 3 => (s.m : Int)
  | 4 => (s.b : Int)
  | 5 => (s.u : Int)
  | 6 => (s.rows : Int)
  | 7 => (s.cols : Int)
  | 8 => (s.paddr : Int)
  | 9 => (s.slen : Int)
  | 10 => (s.rpos : Int)
  | _ => 0

/-- Bit `S[t]`, taken as 0 for `t ≥ SLEN` (R60). -/
def streamBit (s : State) (t : Nat) : Nat :=
  (s.stream[t]?.getD false).toNat

/-- `ByteView(j) = sum over i in 0..7 of S[8j + i] * 2^(7 − i)` (R60). -/
def byteView (s : State) (j : Nat) : Nat :=
  ((List.range 8).map fun i => streamBit s (8 * j + i) * 2 ^ (7 - i)).sum

/-- The stream has `ceil(SLEN / 8)` bytes (R60). -/
def byteCount (s : State) : Nat :=
  (s.slen + 7) / 8

end Sys2Proof.Machine
end

