-- ==== Sys2Proof/Safety.lean ====
section
/-! DEFINITION. What holds of the CORE at every command boundary, in the terms the statements use: the legal parameters
(R9) and the invariants R22 to R39 state. -/

namespace Sys2Proof.Machine

/-- The open parameters have values R9 allows: `PLANE_CAP ≤ 2^24`, and STREAM_CAP "when finite, a multiple of 8". -/
abbrev ParamsLegal (p : Config.Params) : Prop :=
  p.planeCap ≤ Config.planeCapMax ∧ ∀ cap ∈ p.streamCap, cap % 8 = 0

/-- R25: "either `M = 0, B = 0, U = 0`, or `M >= 1, B = clog2(M), U = 2^B - M`"; with the range of M (R22). -/
abbrev ParameterInv (s : State) : Prop :=
  s.m ≤ Config.mMax ∧ ((s.m = 0 ∧ s.b = 0 ∧ s.u = 0) ∨ (1 ≤ s.m ∧ s.rice = riceOf s.m))

/-- R26, R27: the geometry registers are in range and the plane fits the store. -/
abbrev GeometryInv (s : State) : Prop :=
  s.rows ≤ Config.dimMax ∧ s.cols ≤ Config.dimMax ∧ s.positions ≤ s.params.planeCap

/-- R28, R29, R39: the plane store is in its canonical form and holds only cells of the store; PADDR and COUNT are in
range. -/
abbrev PlaneInv (s : State) : Prop :=
  Memory.wf s.plane ∧ (∀ c ∈ s.plane, c.1 < s.params.planeCap) ∧ s.paddr ≤ 2 ^ 24 ∧
    s.count ≤ s.params.planeCap

/-- R33: `0 ≤ RPOS ≤ SLEN ≤ STREAM_CAP`. -/
abbrev StreamInv (s : State) : Prop :=
  s.rpos ≤ s.slen ∧ ∀ cap ∈ s.params.streamCap, s.slen ≤ cap

/-- R36, R37: MIDSYM is 1 only with LAST = IncompleteStream; ERRS[0] and ERRS[7] are 0, and a code in LAST other than OK
has its sticky bit set. -/
abbrev StatusInv (s : State) : Prop :=
  (s.midsym = true → s.last = .incompleteStream) ∧ s.errs.getLsbD 0 = false ∧ s.errs.getLsbD 7 = false ∧
    (s.last ≠ .ok → s.errs.getLsbD s.last.code = true)

/-- R38 with a finite VAL_BITS: RESULT is in the value domain. -/
abbrev ResultInv (s : State) : Prop :=
  fitsDomain s.params s.result = true

/-- Everything the spec says of the state at every command boundary. -/
structure State.Inv (s : State) : Prop where
  params : ParamsLegal s.params
  parameter : ParameterInv s
  geometry : GeometryInv s
  plane : PlaneInv s
  stream : StreamInv s
  status : StatusInv s
  result : ResultInv s

/-- Which codes other than OK a command can complete with: the rows of R234 (their column "reserved bits" concerns words
that decode to no command). -/
def possibleCodes : Instr → List Status
  | .nop => []
  | .clrerr => []
  | .bsClear => []
  | .bsRewind => []
  | .bsWbit _ => [.streamFull]
  | .bsWbits _ _ => [.illegalCommand, .streamFull]
  | .bsRbit => [.endOfStream]
  | .bsRbits _ => [.endOfStream, .illegalCommand]
  | .bsFlush => []
  | .bsTrunc _ => [.illegalCommand]
  | .rcSetm _ => [.invalidParameter]
  | .rcEnc _ => [.invalidParameter, .streamFull]
  | .rcDec => [.invalidParameter, .incompleteStream, .endOfStream]
  | .prPred _ _ => []
  | .plSetdim _ _ => [.geometryMismatch]
  | .plEnc => [.invalidParameter, .streamFull]
  | .plDec => [.invalidParameter, .incompleteStream]
  | .plSeek _ => []
  | .plPut _ => [.illegalCommand]
  | .plGet => [.illegalCommand]

/-- The value domain is the integers, as R9 has it by default: then no value can fall outside it (U6). -/
abbrev DefaultDomain (s : State) : Prop :=
  s.params.valBits = none

end Sys2Proof.Machine
end

