-- ==== Sys2Proof/Certificates/Slice0/Obligations.lean ====
section
/-! DEFINITION. The statements for the provers. Wherever a statement gives the next state of a command, it gives ALL of
it: a field that the `with` does not name is unchanged. -/

open Sys2Proof Sys2Proof.Machine

/-! Words and commands. -/

/-- R80 to R83: decoding the word of a well-formed command gives the command back, whatever its operands. -/
def Obligations.DecodeOfEncode : Prop :=
  ∀ i : Instr, i.wf = true → decode (encode i) = .command i

/-- R80 to R83: a word that decodes to a command is that command's one word, and the command is well formed. -/
def Obligations.EncodeOfDecode : Prop :=
  ∀ (w : Word) (i : Instr), decode w = .command i → i.wf = true ∧ encode i = w

/-- R84: a word is a command exactly when `(cmd AND mask) = match` for a row of the opcode table, which has twenty rows,
and at most one row matches a word. -/
def Obligations.DecodeAcceptsExactlyTheTable : Prop :=
  opcodeTable.length = 20 ∧
  (∀ w : Word, (∃ i, decode w = .command i) ↔ ∃ row ∈ opcodeTable, w &&& row.1 = row.2) ∧
  ∀ w : Word, ∀ row ∈ opcodeTable, ∀ row' ∈ opcodeTable,
    w &&& row.1 = row.2 → w &&& row'.1 = row'.2 → row = row'

/-- R88: the words the spec writes out decode to the commands it writes beside them. -/
def Obligations.DecodesTheExampleWords : Prop :=
  decode 0x20000005#32 = .command (.rcSetm 5) ∧ decode 0x21FFFFF3#32 = .command (.rcEnc (-13)) ∧
  decode 0x40002003#32 = .command (.plSetdim 2 3) ∧ decode 0x13030005#32 = .command (.bsWbits 3 5) ∧
  decode 0x15080000#32 = .command (.bsRbits 8) ∧ decode 0x440000FF#32 = .command (.plPut 255) ∧
  decode 0x30001002#32 = .command (.prPred 1 2) ∧ decode 0x00000000#32 = .command .nop

/-! The machine. -/

/-- R43: after reset every register of R42 reads 0, the fields of STATUS are 0, the stream is empty, and no cell of the
plane store has a defined value. -/
def Obligations.ResetStateOfTheCore : Prop :=
  (∀ n, regRead n State.reset = 0) ∧ State.reset.last = .ok ∧ State.reset.midsym = false ∧
  State.reset.errs = 0 ∧ State.reset.stream = [] ∧ ∀ a, Memory.read? State.reset.plane a = none

/-- R241: "nothing executes by itself": while the host presents nothing, as after reset, a step changes nothing. That a
step then answers at all is the model's choice (log 2). -/
def Obligations.NothingExecutesByItself : Prop :=
  State.reset.host = [] ∧ ∀ s : State, s.host = [] → step s = .next s

/-- R240 to R242: a reset the host applies between commands, in any state, leaves the registers, the stream and the plane
store as after reset. That it is an event of the host's list is the model's choice (logs 1 and 3). -/
def Obligations.HostResetLeavesResetState : Prop :=
  ∀ (s : State) (rest : List HostEvent), s.host = .reset :: rest →
    ∃ t, step s = .next t ∧ (∀ n, regRead n t = 0) ∧ t.last = .ok ∧ t.midsym = false ∧ t.errs = 0 ∧
      t.stream = [] ∧ (∀ a, Memory.read? t.plane a = none) ∧ t.params = s.params ∧ t.host = rest

/-- R192: when the host presents a word that is a command, one step performs that command completely, the word having
been taken from the host's list (log 1). -/
def Obligations.StepRunsThePresentedCommand : Prop :=
  ∀ (s : State) (w : Word) (rest : List HostEvent) (i : Instr), s.host = .command w :: rest →
    decode w = .command i → step s = exec i { s with host := rest }

/-- R85: when the host presents a word that no row of the opcode table matches, the command completes with
IllegalCommand and `ERRS[5]`, and nothing else changes but that the word has been taken from the host's list (log 1). -/
def Obligations.IllegalWordsOnlySetStatus : Prop :=
  ∀ (s : State) (w : Word) (rest : List HostEvent), s.host = .command w :: rest →
    (∀ row ∈ opcodeTable, w &&& row.1 ≠ row.2) →
    step s = .next { s with host := rest, last := .illegalCommand, midsym := false, errs := s.errs ||| 0x20#8 }

/-- R22 to R39: what the spec says of the state at every command boundary holds after reset. -/
def Obligations.InvariantHoldsAtReset : Prop :=
  State.Inv State.reset

/-- R22 to R39: every step, from every state in which it holds, keeps what the spec says of the state at every command
boundary. -/
def Obligations.InvariantKeptByEveryStep : Prop :=
  ∀ s t : State, s.Inv → step s = .next t → t.Inv

/-- R192, R253: with the default value domain every step from every state answers a next state: no command word, and no
data, ends a run. That the waiting step, with nothing presented, answers too is the model's choice (log 2). -/
def Obligations.EveryStepAnswersInTheDefaultDomain : Prop :=
  ∀ s : State, DefaultDomain s → ∃ t, step s = .next t

/-- U6: every refusal of the machine bears the name valueOutsideDomain, and none happens with the default, unbounded
VAL_BITS. Which values are refused is said by ValuesOutsideTheDomainAreRefused and PassesRefuseValuesOutsideTheDomain
(logs 7 and 14). -/
def Obligations.StopsOnlyOutsideTheValueDomain : Prop :=
  ∀ (i : Instr) (s : State) (r : Refusal), exec i s = .refused r →
    r = .valueOutsideDomain ∧ s.params.valBits ≠ none

/-! Completing a command. -/

/-- R215, R36, R37: every command that completes leaves the sticky bits it found (none after CLRERR) with the bit of its
own code set when the code is not OK; MIDSYM is set only by RC.DEC and PL.DEC completing with IncompleteStream (when
PL.DEC sets it, PlaneDecodeStopsEarly says). -/
def Obligations.CompletionWritesStatus : Prop :=
  ∀ (i : Instr) (s t : State), exec i s = .next t →
    t.errs = (if i = .clrerr then 0#8 else s.errs) |||
      (if t.last = .ok then 0#8 else BitVec.ofNat 8 (2 ^ t.last.code)) ∧
    (t.midsym = true → t.last = .incompleteStream ∧ (i = .rcDec ∨ i = .plDec))

/-- R234: which command can complete with which code, in every state the invariants admit. -/
def Obligations.CodesEachCommandCanCompleteWith : Prop :=
  ∀ (i : Instr) (s t : State), s.Inv → exec i s = .next t → t.last = .ok ∨ t.last ∈ possibleCodes i

/-- R224: "For codes 1, 3, 5 the command has no effect but on `STATUS`." -/
def Obligations.RefusedCommandsHaveNoEffect : Prop :=
  ∀ (i : Instr) (s t : State), exec i s = .next t →
    t.last = .invalidParameter ∨ t.last = .geometryMismatch ∨ t.last = .illegalCommand →
    t = { s with last := t.last, midsym := false, errs := s.errs ||| BitVec.ofNat 8 (2 ^ t.last.code) }

/-- R42, R22 to R29, R38, R39: a register changes only through the commands the register map names as its writers, and
RESULT only by a command that completes OK. -/
def Obligations.OnlyTheirWritersChangeRegisters : Prop :=
  ∀ (i : Instr) (s t : State), exec i s = .next t →
    (t.m = s.m ∧ t.b = s.b ∧ t.u = s.u ∨ ∃ m, i = .rcSetm m) ∧
    (t.rows = s.rows ∧ t.cols = s.cols ∨ ∃ rows cols, i = .plSetdim rows cols) ∧
    (t.paddr = s.paddr ∨ (∃ a, i = .plSeek a) ∨ (∃ v, i = .plPut v) ∨ i = .plGet) ∧
    (t.result = s.result ∨ t.last = .ok ∧
      (i = .bsRbit ∨ (∃ n, i = .bsRbits n) ∨ i = .rcDec ∨ (∃ row col, i = .prPred row col) ∨ i = .plGet)) ∧
    (t.count = s.count ∨ i = .plEnc ∨ i = .plDec) ∧
    t.params = s.params ∧ t.resetCount = s.resetCount ∧ t.host = s.host

/-- R28, R31, R32, R42: the plane store changes only through PL.PUT and PL.DEC, the stream only through its writers and
the cursor only through its writers; in particular no command but BS.CLEAR and BS.TRUNC moves both (R119, R247). -/
def Obligations.OnlyTheirWritersChangeStores : Prop :=
  ∀ (i : Instr) (s t : State), exec i s = .next t →
    (t.plane = s.plane ∨ (∃ v, i = .plPut v) ∨ i = .plDec) ∧
    (t.stream = s.stream ∨ i = .bsClear ∨ (∃ bit, i = .bsWbit bit) ∨ (∃ n v, i = .bsWbits n v) ∨ i = .bsFlush ∨
      (∃ n, i = .bsTrunc n) ∨ (∃ v, i = .rcEnc v) ∨ i = .plEnc) ∧
    (t.rpos = s.rpos ∨ i = .bsClear ∨ i = .bsRewind ∨ i = .bsRbit ∨ (∃ n, i = .bsRbits n) ∨ (∃ n, i = .bsTrunc n) ∨
      i = .rcDec ∨ i = .plDec)

/-- R35 to R39, R250: no command's behaviour depends on STATUS, RESULT or COUNT: from two states that differ in nothing
else, every command completes in the same way, and the states after it differ in nothing but ERRS, RESULT and COUNT.
RESULT is the same in both or unchanged in both, and so is COUNT; ERRS is cleared in both, by CLRERR, or gains the same
bit in both. -/
def Obligations.StatusResultAndCountNeverSteer : Prop :=
  ∀ (i : Instr) (s t : State) (l : Status) (x : Bool) (e : BitVec 8) (r : Int) (c : Nat), exec i s = .next t →
    let bit : BitVec 8 := if t.last = .ok then 0#8 else BitVec.ofNat 8 (2 ^ t.last.code)
    ∃ t', exec i { s with last := l, midsym := x, errs := e, result := r, count := c } = .next t' ∧
      t' = { t with errs := t'.errs, result := t'.result, count := t'.count } ∧
      (t'.result = t.result ∨ t'.result = r ∧ t.result = s.result) ∧
      (t'.count = t.count ∨ t'.count = c ∧ t.count = s.count) ∧
      (i = .clrerr ∧ t.errs = 0#8 ∧ t'.errs = 0#8 ∨ t.errs = s.errs ||| bit ∧ t'.errs = e ||| bit)

/-- R34, R42, R193: the register map, the layout of STATUS with its reserved bits 0, and 0 from the numbers 11 to 255.
That numbers above 255 give 0 too is the model's deduction (log 12). -/
def Obligations.RegisterReadPort : Prop :=
  ∀ s : State,
    regRead 0 s = ((statusWord s).toNat : Int) ∧ field (statusWord s) 3 0 = s.last.code ∧
    field (statusWord s) 4 4 = s.midsym.toNat ∧ field (statusWord s) 7 5 = 0 ∧
    field (statusWord s) 15 8 = s.errs.toNat ∧ field (statusWord s) 31 16 = 0 ∧
    regRead 1 s = s.result ∧ regRead 2 s = s.count ∧ regRead 3 s = s.m ∧ regRead 4 s = s.b ∧ regRead 5 s = s.u ∧
    regRead 6 s = s.rows ∧ regRead 7 s = s.cols ∧ regRead 8 s = s.paddr ∧ regRead 9 s = s.stream.length ∧
    regRead 10 s = s.rpos ∧ ∀ n, 11 ≤ n → regRead n s = 0

/-- R217: a command that needs `m ≥ 1` and does not have it completes with InvalidParameter and nothing else changes:
RC.SETM with operand 0, and the four coding commands while `M = 0`. -/
def Obligations.InvalidParameterStops : Prop :=
  ∀ s : State,
    let stopped := { s with last := .invalidParameter, midsym := false, errs := s.errs ||| 0x02#8 }
    exec (.rcSetm 0) s = .next stopped ∧
    (s.m = 0 → (∀ v, exec (.rcEnc v) s = .next stopped) ∧ exec .rcDec s = .next stopped ∧
      exec .plEnc s = .next stopped ∧ exec .plDec s = .next stopped)

/-- R221 (c) to (e): an operand out of range completes with IllegalCommand and nothing else changes. -/
def Obligations.OutOfRangeOperandsAreIllegal : Prop :=
  ∀ s : State,
    let stopped := { s with last := .illegalCommand, midsym := false, errs := s.errs ||| 0x20#8 }
    (∀ n v, 16 < n → exec (.bsWbits n v) s = .next stopped) ∧
    (∀ n, 16 < n → exec (.bsRbits n) s = .next stopped) ∧
    (∀ n, s.slen < n → exec (.bsTrunc n) s = .next stopped) ∧
    (s.params.planeCap ≤ s.paddr → (∀ v, exec (.plPut v) s = .next stopped) ∧ exec .plGet s = .next stopped)

/-- R222: a bit, a group or a symbol that would make SLEN exceed STREAM_CAP is not written at all, and the command
completes with StreamFull. For a symbol the premise is that its value, magnitude, `q` and `r` fit a finite VAL_BITS: that
these are the values checked, and checked before the room, is the model's reading (log 7). -/
def Obligations.StreamFullWritesNothing : Prop :=
  ∀ (s : State) (cap : Nat), s.params.streamCap = some cap →
    let stopped := { s with last := .streamFull, midsym := false, errs := s.errs ||| 0x40#8 }
    (∀ bit, cap < s.slen + 1 → exec (.bsWbit bit) s = .next stopped) ∧
    (∀ n v, n ≤ 16 → cap < s.slen + n → exec (.bsWbits n v) s = .next stopped) ∧
    (∀ v, 1 ≤ s.m → valuesFit s.params (symbolValues s.rice v) = true →
      cap < s.slen + (symbolBits s.rice v).length → exec (.rcEnc v) s = .next stopped)

/-! The control and bit-stream families. -/

/-- R190, R191: NOP writes LAST and MIDSYM and keeps ERRS; CLRERR clears ERRS as well. -/
def Obligations.ControlCommandsComplete : Prop :=
  ∀ s : State,
    exec .nop s = .next { s with last := .ok, midsym := false } ∧
    exec .clrerr s = .next { s with last := .ok, midsym := false, errs := 0#8 }

/-- R110, R111, R117: BS.CLEAR empties the stream, BS.REWIND moves the cursor to its start, BS.TRUNC keeps the first `n`
bits, `n ≤ SLEN`, and does not leave the cursor beyond them. -/
def Obligations.StreamControlCommandsComplete : Prop :=
  ∀ s : State,
    exec .bsClear s = .next { s with stream := [], rpos := 0, last := .ok, midsym := false } ∧
    exec .bsRewind s = .next { s with rpos := 0, last := .ok, midsym := false } ∧
    ∀ n, n ≤ s.slen →
      exec (.bsTrunc n) s =
        .next { s with stream := s.stream.take n, rpos := min s.rpos n, last := .ok, midsym := false }

/-- R112, R113: where the stream has room, BS.WBIT appends its bit, and BS.WBITS, `n ≤ 16`, the low `n` bits of `v`, the
most significant of them first; the cursor does not move. -/
def Obligations.WritesAppendTheirBits : Prop :=
  ∀ s : State,
    (∀ bit, (∀ cap ∈ s.params.streamCap, s.slen + 1 ≤ cap) →
      exec (.bsWbit bit) s = .next { s with stream := s.stream ++ [bit], last := .ok, midsym := false }) ∧
    ∀ n v, n ≤ 16 → (∀ cap ∈ s.params.streamCap, s.slen + n ≤ cap) →
      exec (.bsWbits n v) s = .next { s with
        stream := s.stream ++ (List.range n).map fun i => v.testBit (n - 1 - i)
        last := .ok, midsym := false }

/-- R116: BS.FLUSH appends 0 to 7 zero bits, as many as make SLEN a multiple of 8, and it always completes OK: with a
STREAM_CAP that is a multiple of 8, StreamFull cannot happen. -/
def Obligations.FlushPadsToAWholeByte : Prop :=
  ∀ s : State, ParamsLegal s.params → StreamInv s →
    ∃ pad, pad < 8 ∧ (s.slen + pad) % 8 = 0 ∧
      exec .bsFlush s =
        .next { s with stream := s.stream ++ List.replicate pad false, last := .ok, midsym := false }

/-- R114, R115: while enough bits remain, BS.RBIT gives the next bit and BS.RBITS, `n ≤ 16`, the next `n` bits as an
unsigned number, first bit most significant; the cursor advances by their number. With `n = 0` nothing is consumed, also
at the end of the stream, and RESULT is 0. With a finite VAL_BITS the premise is that RESULT fits (log 7). -/
def Obligations.ReadsReturnTheNextBits : Prop :=
  ∀ s : State,
    (∀ bit, s.stream[s.rpos]? = some bit → fitsDomain s.params bit.toNat = true →
      exec .bsRbit s =
        .next { s with rpos := s.rpos + 1, result := bit.toNat, last := .ok, midsym := false }) ∧
    ∀ n, n ≤ 16 → s.rpos + n ≤ s.slen →
      ∃ x : Nat, x < 2 ^ n ∧ (∀ i, i < n → s.stream[s.rpos + i]? = some (x.testBit (n - 1 - i))) ∧
        (fitsDomain s.params x = true →
          exec (.bsRbits n) s =
            .next { s with rpos := s.rpos + n, result := x, last := .ok, midsym := false })

/-- R114, R115, R220: at the end of the stream BS.RBIT completes with EndOfStream and changes nothing else; BS.RBITS with
fewer bits left than it asks for consumes them all, discards them and leaves RESULT unchanged. That it does so also with
a finite VAL_BITS, unchecked, is the model's choice (log 14). -/
def Obligations.ReadsAtTheEndOfTheStream : Prop :=
  ∀ s : State, s.rpos ≤ s.slen →
    (s.rpos = s.slen →
      exec .bsRbit s =
        .next { s with last := .endOfStream, midsym := false, errs := s.errs ||| 0x10#8 }) ∧
    ∀ n, n ≤ 16 → s.slen < s.rpos + n →
      exec (.bsRbits n) s = .next { s with
        rpos := s.slen, last := .endOfStream, midsym := false, errs := s.errs ||| 0x10#8 }

/-- R60: at a whole byte of the stream, BS.RBITS 8 gives the byte of the byte view. -/
def Obligations.ByteViewIsWhatByteReadsGive : Prop :=
  ∀ (s : State) (j : Nat), DefaultDomain s → s.rpos = 8 * j → 8 * j + 8 ≤ s.slen →
    exec (.bsRbits 8) s = .next { s with
      rpos := 8 * j + 8, result := byteView s j, last := .ok, midsym := false }

/-- R59: "`GetBits(n)` after `PutBits(n, v)` on an otherwise empty, rewound stream returns `v`", as commands: BS.RBITS n
after BS.WBITS n, v gives the low `n` bits of `v`. -/
def Obligations.GroupsReadBackAsWritten : Prop :=
  ∀ (s : State) (n v : Nat), DefaultDomain s → n ≤ 16 → s.stream = [] → s.rpos = 0 →
    (∀ cap ∈ s.params.streamCap, n ≤ cap) →
    ∃ t t', exec (.bsWbits n v) s = .next t ∧ exec (.bsRbits n) t = .next t' ∧ t'.result = (v % 2 ^ n : Nat) ∧
      t'.last = .ok ∧ t'.rpos = t'.slen

/-! The Golomb-Rice coder family. -/

/-- R145, R12: for `m ≥ 1`, RC.SETM sets M, the least B with `2^B ≥ m`, and `U = 2^B − m`. -/
def Obligations.SetmComputesTheParameters : Prop :=
  ∀ (s : State) (m : Nat), 1 ≤ m →
    ∃ b, m ≤ 2 ^ b ∧ (∀ b', m ≤ 2 ^ b' → b ≤ b') ∧
      exec (.rcSetm m) s =
        .next { s with m := m, b := b, u := 2 ^ b - m, last := .ok, midsym := false }

/-- R146, R135, R131: RC.ENC appends the sign bit, `|value| div M` ones and a zero, and the remainder in truncated binary
(no bit when `B = 0`, `B − 1` bits below U, else `B` bits), most significant bit first, when the stream has room
and the value, its magnitude, `q` and `r` fit a finite VAL_BITS. That these alone are checked, and not the group value
`r + U`, is the model's reading (log 7). -/
def Obligations.EncAppendsOneSymbol : Prop :=
  ∀ (s : State) (v : Int), 1 ≤ s.m →
    let q := v.natAbs / s.m
    let r := v.natAbs % s.m
    let group := fun (n x : Nat) => (List.range n).map fun i => x.testBit (n - 1 - i)
    let field := if s.b = 0 then [] else if r < s.u then group (s.b - 1) r else group s.b (r + s.u)
    let symbol := decide (v < 0) :: (List.replicate q true ++ (false :: field))
    valuesFit s.params [v, (v.natAbs : Int), (q : Int), (r : Int)] = true →
    (∀ cap ∈ s.params.streamCap, s.slen + symbol.length ≤ cap) →
    exec (.rcEnc v) s = .next { s with stream := s.stream ++ symbol, last := .ok, midsym := false }

/-- R142: `SymLen(value, m) = 2 + q + rb` is the number of bits of the symbol, the same for a value and its negation; with
the rule's own examples. -/
def Obligations.SymLenIsTheNumberOfBits : Prop :=
  (∀ (m : Nat) (v : Int), 1 ≤ m →
    symLen (riceOf m) v = (symbolBits (riceOf m) v).length ∧
    symLen (riceOf m) v = symLen (riceOf m) (-v) ∧
    symLen (riceOf m) v = 2 + v.natAbs / m +
      (if clog2 m = 0 then 0 else if v.natAbs % m < 2 ^ clog2 m - m then clog2 m - 1 else clog2 m)) ∧
  symLen (riceOf 1) 0 = 2 ∧ symLen (riceOf 1) 3 = 5 ∧ symLen (riceOf 5) 2 = 4 ∧ symLen (riceOf 5) 3 = 5 ∧
  symLen (riceOf 4) 255 = 67

/-- R140: for every `m ≥ 1` and every integer `v` (with a finite VAL_BITS: every `v` that fits with its magnitude, `q` and
`r`): if the stream holds, from RPOS on, the symbol of `v`, then RC.DEC gives `v` and advances RPOS by exactly its
length, whatever bits follow. That these values alone are checked, and not the group values of R132, is the model's
reading (log 7). -/
def Obligations.SymbolRoundTrip : Prop :=
  ∀ (s : State) (v : Int) (rest : List Bool), 1 ≤ s.m → s.rice = riceOf s.m →
    valuesFit s.params (symbolValues s.rice v) = true → s.unread = symbolBits s.rice v ++ rest →
    exec .rcDec s = .next { s with
      result := v, rpos := s.rpos + symLen s.rice v, last := .ok, midsym := false }

/-- R141: RC.DEC gives 0 both for the symbol of 0 and for that symbol with sign 1; the symbol RC.ENC writes for 0 has
sign 0, and no status distinguishes the two spellings. -/
def Obligations.NegativeZeroDecodesToZero : Prop :=
  ∀ (s : State) (sign : Bool) (rest : List Bool), 1 ≤ s.m → s.rice = riceOf s.m → DefaultDomain s →
    (symbolBits s.rice 0).head? = some false ∧
    (s.unread = sign :: ((symbolBits s.rice 0).tail ++ rest) →
      exec .rcDec s = .next { s with
        result := 0, rpos := s.rpos + symLen s.rice 0, last := .ok, midsym := false })

/-- R101, R102: whatever the bits, a symbol RC.DEC decodes is the encoder's own symbol of the value it gives, or the
symbol of 0 with its sign bit turned to 1; and exactly its bits are consumed. -/
def Obligations.DecodedSymbolsAreTheEncodersOwn : Prop :=
  ∀ s t : State, 1 ≤ s.m → s.rice = riceOf s.m → exec .rcDec s = .next t → t.last = .ok →
    (s.unread = symbolBits s.rice t.result ++ t.unread ∨
      t.result = 0 ∧ s.unread = true :: ((symbolBits s.rice 0).tail ++ t.unread))

/-- R137 to R139: with no bit left RC.DEC completes with EndOfStream and nothing has been consumed; when the bits left
are a symbol cut short anywhere after its sign bit, in the unary run or in the remainder, it completes with
IncompleteStream, MIDSYM set, every bit consumed and RESULT unchanged. That it does so also with a finite VAL_BITS, the
cut symbol unchecked, is the model's choice (log 14). -/
def Obligations.DecAtTheEndOfTheStream : Prop :=
  ∀ s : State, 1 ≤ s.m → s.rice = riceOf s.m → s.rpos ≤ s.slen →
    (s.unread = [] →
      exec .rcDec s =
        .next { s with last := .endOfStream, midsym := false, errs := s.errs ||| 0x10#8 }) ∧
    ∀ (v : Int) (cut : List Bool), s.unread ≠ [] → cut ≠ [] → symbolBits s.rice v = s.unread ++ cut →
      exec .rcDec s = .next { s with
        rpos := s.slen, last := .incompleteStream, midsym := true, errs := s.errs ||| 0x04#8 }

/-! The predictor family. -/

/-- R166, R160 to R162, R52: PR.PRED writes RESULT with the median-edge prediction from the three neighbours, each read
as its cell inside the plane and as 0 outside it; it completes in every state whose values fit (the values of log 7). A neighbour
nothing has written enters with its free value (log 4). -/
def Obligations.PredGivesTheMedianEdge : Prop :=
  ∀ (s : State),
    (∀ row col : Int, 0 ≤ row → row < s.rows → 0 ≤ col → col < s.cols →
      s.planeRead row col = ((s.cell (row * s.cols + col).toNat).toNat : Int)) ∧
    (∀ row col : Int, row < 0 ∨ s.rows ≤ row ∨ col < 0 ∨ s.cols ≤ col → s.planeRead row col = 0) ∧
    ∀ row col : Nat, valuesFit s.params (s.predictValues row col) = true →
      let a := s.planeRead row ((col : Int) - 1)
      let b := s.planeRead ((row : Int) - 1) col
      let c := s.planeRead ((row : Int) - 1) ((col : Int) - 1)
      exec (.prPred row col) s = .next { s with
        result := if max a b ≤ c then min a b else if c ≤ min a b then max a b else a + b - c
        last := .ok, midsym := false }

/-- R163: a prediction lies between its left and its top neighbour, hence in 0 to 255. -/
def Obligations.PredictionLiesBetweenItsNeighbours : Prop :=
  ∀ (s : State) (row col : Nat),
    min (s.leftOf row col) (s.topOf row col) ≤ s.predict row col ∧
    s.predict row col ≤ max (s.leftOf row col) (s.topOf row col) ∧
    0 ≤ s.predict row col ∧ s.predict row col ≤ 255

/-- R164: at (0, 0) all three neighbours are 0 and the prediction is 0; in the first row the top neighbours are 0 and the
prediction is the left neighbour; in the first column the left neighbours are 0 and the prediction is the top neighbour. -/
def Obligations.EdgePredictions : Prop :=
  ∀ s : State,
    (s.leftOf 0 0 = 0 ∧ s.topOf 0 0 = 0 ∧ s.topLeftOf 0 0 = 0 ∧ s.predict 0 0 = 0) ∧
    (∀ col, 1 ≤ col → s.topOf 0 col = 0 ∧ s.topLeftOf 0 col = 0 ∧ s.predict 0 col = s.leftOf 0 col) ∧
    ∀ row, 1 ≤ row → s.leftOf row 0 = 0 ∧ s.topLeftOf row 0 = 0 ∧ s.predict row 0 = s.topOf row 0

/-- R165: cells at or after a position in raster order never influence its prediction. -/
def Obligations.PredictionIsCausal : Prop :=
  ∀ (s t : State) (k : Nat), t.rows = s.rows → t.cols = s.cols → k < s.positions →
    (∀ a, a < k → t.cell a = s.cell a) → t.predictAt k = s.predictAt k

/-! The plane codec family. -/

/-- R179: PL.SETDIM sets ROWS and COLS when the plane fits the store and completes with GeometryMismatch, nothing else
changed, when it does not; with the default capacity no operand is refused. -/
def Obligations.SetdimSetsTheGeometry : Prop :=
  ∀ (s : State) (rows cols : Nat),
    (rows * cols ≤ s.params.planeCap →
      exec (.plSetdim rows cols) s =
        .next { s with rows := rows, cols := cols, last := .ok, midsym := false }) ∧
    (s.params.planeCap < rows * cols →
      exec (.plSetdim rows cols) s =
        .next { s with last := .geometryMismatch, midsym := false, errs := s.errs ||| 0x08#8 }) ∧
    (s.params.planeCap = 2 ^ 24 → (Instr.plSetdim rows cols).wf = true → rows * cols ≤ s.params.planeCap)

/-- R182 to R184: PL.SEEK sets PADDR; PL.PUT stores one sample at PADDR and no other cell, and PL.GET reads the cell at
PADDR into RESULT, each moving PADDR to the next cell, while PADDR is below PLANE_CAP. Of a cell nothing has written PL.GET
gives the free value (log 4); with a finite VAL_BITS the value must fit (log 7). -/
def Obligations.SeekPutAndGetComplete : Prop :=
  ∀ s : State,
    (∀ a, exec (.plSeek a) s = .next { s with paddr := a, last := .ok, midsym := false }) ∧
    (s.paddr < s.params.planeCap → ∀ v, ∃ p,
      exec (.plPut v) s =
        .next { s with plane := p, paddr := s.paddr + 1, last := .ok, midsym := false } ∧
      Memory.read? p s.paddr = some v ∧ ∀ a, a ≠ s.paddr → Memory.read? p a = Memory.read? s.plane a) ∧
    (s.paddr < s.params.planeCap → fitsDomain s.params (s.cell s.paddr).toNat = true →
      exec .plGet s = .next { s with
        result := (s.cell s.paddr).toNat, paddr := s.paddr + 1, last := .ok, midsym := false })

/-- R172, R180: PL.ENC appends, for every position in raster order and with nothing between them, the symbol of the cell
minus its prediction, and COUNT is the number of positions, when the stream has room for all of them and the values of
log 7 fit. Cells nothing has written enter with their free values, the same at every read (log 4). -/
def Obligations.PlaneEncodeAppendsAllSymbols : Prop :=
  ∀ s : State, 1 ≤ s.m →
    let residual := fun k : Nat => ((s.cell k).toNat : Int) - s.predict (k / s.cols) (k % s.cols)
    let symbols := (List.range (s.rows * s.cols)).flatMap fun k => symbolBits s.rice (residual k)
    (∀ k, k < s.rows * s.cols → valuesFit s.params
      (s.predictValues (k / s.cols) (k % s.cols) ++ symbolValues s.rice (residual k)) = true) →
    (∀ cap ∈ s.params.streamCap, s.slen + symbols.length ≤ cap) →
    exec .plEnc s = .next { s with
      stream := s.stream ++ symbols, count := s.rows * s.cols, last := .ok, midsym := false }

/-- R180, R222: a symbol that does not fit ends PL.ENC with StreamFull before its first bit: the stream then holds exactly
COUNT whole symbols and no partial one. Stated in the default value domain; cells nothing has written enter with their
free values, the same at every read (log 4). -/
def Obligations.PlaneEncodeStopsWhenFull : Prop :=
  ∀ (s : State) (cap j : Nat), 1 ≤ s.m → DefaultDomain s → s.params.streamCap = some cap → j < s.positions →
    let symbols := fun n : Nat => (List.range n).flatMap fun k => symbolBits s.rice (s.residual k)
    s.slen + (symbols j).length ≤ cap → cap < s.slen + (symbols (j + 1)).length →
    exec .plEnc s = .next { s with
      stream := s.stream ++ symbols j, count := j, last := .streamFull, midsym := false, errs := s.errs ||| 0x40#8 }

/-- R178: every residual lies in −255 to 255, and both ends are reached. -/
def Obligations.ResidualsLieWithinASample : Prop :=
  (∀ (s : State) (k : Nat), -255 ≤ s.residual k ∧ s.residual k ≤ 255) ∧
  (∃ (s : State) (k : Nat), k < s.positions ∧ s.residual k = 255) ∧
  ∃ (s : State) (k : Nat), k < s.positions ∧ s.residual k = -255

/-- R173, R174, R181: when the stream holds, from RPOS on, the symbols of any `N` integers, PL.DEC completes OK with
COUNT = N, having consumed exactly those symbols; every cell of the plane holds its prediction plus its integer, modulo
256, and every cell beyond the plane what it held. With a finite VAL_BITS the premise is that the values of log 7 fit at
every position of the plane so built; with the default domain they always do. -/
def Obligations.PlaneDecodeReconstructs : Prop :=
  ∀ (s : State) (ds : List Int) (rest : List Bool), 1 ≤ s.m → s.rice = riceOf s.m →
    let built := fun p : Memory => ∀ k (h : k < ds.length), ∃ v, Memory.read? p k = some v ∧
      (v.toNat : Int) = (State.predictAt { s with plane := p } k + ds[k]) % 256
    (∀ p, built p → ∀ k (h : k < ds.length), valuesFit s.params
      (symbolValues s.rice ds[k] ++ State.predictValues { s with plane := p } (k / s.cols) (k % s.cols) ++
        [State.predictAt { s with plane := p } k + ds[k]]) = true) →
    ds.length = s.positions → s.unread = (ds.flatMap fun d => symbolBits s.rice d) ++ rest →
    ∃ p, exec .plDec s = .next { s with
        plane := p, rpos := s.rpos + (ds.flatMap fun d => symbolBits s.rice d).length, count := s.positions,
        last := .ok, midsym := false } ∧
      built p ∧ ∀ a, s.positions ≤ a → Memory.read? p a = Memory.read? s.plane a

/-- R175, R181, R218: when the stream ends before the plane is complete, after the symbols of `j` integers and possibly
inside one more, PL.DEC completes with IncompleteStream, COUNT = j and every bit consumed; the first `j` cells are
reconstructed, the others of the plane hold 0, and MIDSYM says whether a symbol was cut. With a finite VAL_BITS the
premise is that the values of log 7 fit at the first `j` positions; the cut symbol is not checked (log 14). -/
def Obligations.PlaneDecodeStopsEarly : Prop :=
  ∀ (s : State) (ds : List Int) (cut : List Bool), 1 ≤ s.m → s.rice = riceOf s.m →
    let built := fun p : Memory => ∀ k (h : k < ds.length), ∃ v, Memory.read? p k = some v ∧
      (v.toNat : Int) = (State.predictAt { s with plane := p } k + ds[k]) % 256
    (∀ p, built p → ∀ k (h : k < ds.length), valuesFit s.params
      (symbolValues s.rice ds[k] ++ State.predictValues { s with plane := p } (k / s.cols) (k % s.cols) ++
        [State.predictAt { s with plane := p } k + ds[k]]) = true) →
    s.rpos ≤ s.slen → ds.length < s.positions → s.unread = (ds.flatMap fun d => symbolBits s.rice d) ++ cut →
    (cut = [] ∨ ∃ v post, post ≠ [] ∧ symbolBits s.rice v = cut ++ post) →
    ∃ p, exec .plDec s = .next { s with
        plane := p, rpos := s.slen, count := ds.length, last := .incompleteStream, midsym := decide (cut ≠ []),
        errs := s.errs ||| 0x04#8 } ∧
      built p ∧ (∀ k, ds.length ≤ k → k < s.positions → Memory.read? p k = some 0#8) ∧
      ∀ a, s.positions ≤ a → Memory.read? p a = Memory.read? s.plane a

/-- R177: with the same M and geometry, PL.DEC of the symbols PL.ENC appended for a plane whose cells were all written
completes OK with COUNT = N and gives the original samples, whatever the store held before and whatever bits follow.
Stated in the default value domain. -/
def Obligations.PlaneRoundTrip : Prop :=
  ∀ s t d : State, 1 ≤ s.m → s.rice = riceOf s.m → DefaultDomain s →
    (∀ k, k < s.positions → Memory.read? s.plane k ≠ none) → exec .plEnc s = .next t → t.last = .ok →
    d.rice = s.rice → d.rows = s.rows → d.cols = s.cols → DefaultDomain d → d.rpos = s.slen →
    (∃ more, d.stream = t.stream ++ more) →
    ∃ t', exec .plDec d = .next t' ∧ t'.last = .ok ∧ t'.count = s.positions ∧ t'.rpos = t.slen ∧
      ∀ k, k < s.positions → Memory.read? t'.plane k = Memory.read? s.plane k

/-- R186: with zero rows or zero columns PL.ENC writes nothing and PL.DEC reads nothing, both complete OK with COUNT = 0,
and every prediction is 0. -/
def Obligations.ZeroSizePlanes : Prop :=
  ∀ s : State, s.rows = 0 ∨ s.cols = 0 →
    (1 ≤ s.m → exec .plEnc s = .next { s with count := 0, last := .ok, midsym := false } ∧
      exec .plDec s = .next { s with count := 0, last := .ok, midsym := false }) ∧
    ∀ row col, s.predict row col = 0

/-- R187: PL.DEC depends only on M, the geometry and the bits from RPOS on: from two states that agree on those, it
completes alike, consumes the same bits and leaves the same plane, whatever the store held before. -/
def Obligations.PlaneDecodeIgnoresTheOldPlane : Prop :=
  ∀ s d t : State, 1 ≤ s.m → d.rice = s.rice → d.rows = s.rows → d.cols = s.cols → d.params = s.params →
    d.unread = s.unread → exec .plDec s = .next t →
    ∃ t', exec .plDec d = .next t' ∧ t'.last = t.last ∧ t'.midsym = t.midsym ∧ t'.count = t.count ∧
      t'.unread = t.unread ∧ ∀ k, k < s.positions → Memory.read? t'.plane k = Memory.read? t.plane k

/-! The value domain. -/

/-- R10, U6: with VAL_BITS = n a value fits when it lies in −2^(n−1) to 2^(n−1) − 1, and a command that would otherwise
complete with a value is refused exactly when one of its values does not fit. Which values are meant is the model's
reading (log 7): RESULT; a prediction and, in the gradient branch, `A + B`; a symbol's value, magnitude, `q` and `r`,
for RC.ENC checked before the room. A cell nothing has written is read by PL.GET and PR.PRED as its free value, also the
model's choice (log 4). -/
def Obligations.ValuesOutsideTheDomainAreRefused : Prop :=
  ∀ (s : State) (n : Nat), s.params.valBits = some n →
    let fits := fun v : Int => -(2 ^ n) ≤ 2 * v ∧ 2 * v < 2 ^ n
    let codes := fun v : Int => fits v ∧ fits (v.natAbs : Nat) ∧ fits (v.natAbs / s.m : Nat) ∧ fits (v.natAbs % s.m : Nat)
    let stop : Answer := .refused .valueOutsideDomain
    (∀ bit rest, s.unread = bit :: rest → (exec .bsRbit s = stop ↔ ¬ fits bit.toNat)) ∧
    (∀ k x rest, k ≤ 16 → x < 2 ^ k → s.unread = putBits k x ++ rest →
      (exec (.bsRbits k) s = stop ↔ ¬ fits x)) ∧
    (∀ row col,
      let a := s.leftOf row col
      let b := s.topOf row col
      let c := s.topLeftOf row col
      (exec (.prPred row col) s = stop ↔
        ¬ (fits (s.predict row col) ∧ (min a b < c → c < max a b → fits (a + b))))) ∧
    (s.paddr < s.params.planeCap → (exec .plGet s = stop ↔ ¬ fits (s.cell s.paddr).toNat)) ∧
    (1 ≤ s.m → (∀ v, exec (.rcEnc v) s = stop ↔ ¬ codes v) ∧
      (s.rice = riceOf s.m → ∀ v rest, s.unread = symbolBits s.rice v ++ rest →
        (exec .rcDec s = stop ↔ ¬ codes v)))

/-- R10, U6: PL.ENC is refused exactly when the values of some position do not fit and the stream has room for the
symbols of all positions before it; PL.DEC is refused when the values of some position do not fit, its symbol and all
those before it being whole. Which values are meant is the model's reading (log 7); cells nothing has written enter
PL.ENC with their free values (log 4). -/
def Obligations.PassesRefuseValuesOutsideTheDomain : Prop :=
  ∀ s : State, 1 ≤ s.m →
    (exec .plEnc s = .refused .valueOutsideDomain ↔
      ∃ j, j < s.positions ∧
        (∀ cap ∈ s.params.streamCap, ∀ k, k < j →
          s.slen + ((List.range (k + 1)).flatMap fun i => symbolBits s.rice (s.residual i)).length ≤ cap) ∧
        valuesFit s.params (s.predictValues (j / s.cols) (j % s.cols) ++ symbolValues s.rice (s.residual j)) = false) ∧
    ∀ (ds : List Int) (d : Int) (rest : List Bool) (p : Memory), s.rice = riceOf s.m → ds.length < s.positions →
      s.unread = (ds.flatMap fun x => symbolBits s.rice x) ++ (symbolBits s.rice d ++ rest) →
      (∀ k (h : k < ds.length), ∃ v, Memory.read? p k = some v ∧
        (v.toNat : Int) = (State.predictAt { s with plane := p } k + ds[k]) % 256) →
      let k := ds.length
      valuesFit s.params (symbolValues s.rice d ++
        State.predictValues { s with plane := p } (k / s.cols) (k % s.cols) ++
        [State.predictAt { s with plane := p } k + d]) = false →
      exec .plDec s = .refused .valueOutsideDomain
end

