-- ==== Sys2Proof/Laws/Bits.lean ====
section
/-! SUPPORT. Bit groups: what PutBits writes and what GetBits reads, each said once (R57 to R59). -/

namespace Sys2Proof.Machine

@[simp] theorem putBits_zero (v : Nat) : putBits 0 v = [] := rfl

@[simp] theorem putBits_length (n v : Nat) : (putBits n v).length = n := by
  induction n with
  | zero => rfl
  | succ n ih => simp [putBits, ih]

/-- The group bit by bit: bit number `i` in stream order is bit `n − 1 − i` of the value. -/
theorem putBits_eq_map (n v : Nat) : putBits n v = (List.range n).map fun i => v.testBit (n - 1 - i) := by
  induction n with
  | zero => rfl
  | succ n ih =>
    rw [putBits, List.range_succ_eq_map, List.map_cons, List.map_map, ih]
    congr 1
    · rw [Nat.testBit_eq_decide_div_mod_eq]; simp
    · refine List.map_congr_left fun i _ => ?_
      simp only [Function.comp]
      congr 1
      omega

/-- Bits of the value above the group are not written. -/
@[simp] theorem putBits_mod (n v : Nat) : putBits n (v % 2 ^ n) = putBits n v := by
  rw [putBits_eq_map, putBits_eq_map]
  refine List.map_congr_left fun i hi => ?_
  have := List.mem_range.1 hi
  rw [Nat.testBit_mod_two_pow]
  simp only [Bool.and_eq_right_iff_imp, decide_eq_true_eq]
  intro _
  omega

/-- A group is the group of the value's half followed by its lowest bit. -/
theorem putBits_succ_last (k w : Nat) : putBits (k + 1) w = putBits k (w / 2) ++ [w.testBit 0] := by
  rw [putBits_eq_map, putBits_eq_map, List.range_succ, List.map_append]
  congr 1
  · refine List.map_congr_left fun i hi => ?_
    have := List.mem_range.1 hi
    rw [show k + 1 - 1 - i = (k - 1 - i) + 1 by omega, Nat.testBit_succ]
  · simp

/-- A group of zeros. -/
theorem putBits_of_zero (n : Nat) : putBits n 0 = List.replicate n false := by
  induction n with
  | zero => rfl
  | succ n ih => simp [putBits, ih, List.replicate_succ]

@[simp] theorem getBit_nil : getBit [] = none := rfl

@[simp] theorem getBit_cons (t : Bool) (rest : List Bool) : getBit (t :: rest) = some (t, rest) := rfl

/-- Everything `GetBits` can answer: EOS exactly when fewer than `n` bits are left, otherwise the value whose group
the next `n` bits are. -/
theorem getBitsFrom_eq (x n : Nat) (bits : List Bool) :
    (getBitsFrom x n bits = none ∧ bits.length < n) ∨
      ∃ y rest, y < 2 ^ n ∧ bits = putBits n y ++ rest ∧ getBitsFrom x n bits = some (x * 2 ^ n + y, rest) := by
  induction n generalizing x bits with
  | zero => exact .inr ⟨0, bits, by simp, rfl, by simp [getBitsFrom]⟩
  | succ n ih =>
    cases bits with
    | nil => exact .inl ⟨rfl, by simp⟩
    | cons t bits =>
      rw [show getBitsFrom x (n + 1) (t :: bits) = getBitsFrom (2 * x + t.toNat) n bits from rfl]
      rcases ih (2 * x + t.toNat) bits with ⟨h, hl⟩ | ⟨y, rest, hy, hb, h⟩
      · exact .inl ⟨h, by simpa using hl⟩
      · refine .inr ⟨t.toNat * 2 ^ n + y, rest, ?_, ?_, ?_⟩
        · have := t.toNat_lt; rw [Nat.pow_succ]; nlinarith [Nat.two_pow_pos n]
        · rw [putBits, hb, List.cons_append]
          congr 1
          · have : (t.toNat * 2 ^ n + y) / 2 ^ n = t.toNat := by
              rw [Nat.add_comm, Nat.add_mul_div_right _ _ (Nat.two_pow_pos n), Nat.div_eq_of_lt hy, Nat.zero_add]
            rw [this]
            cases t <;> rfl
          · congr 1
            rw [← putBits_mod n (t.toNat * 2 ^ n + y), Nat.add_comm, Nat.add_mul_mod_self_right, putBits_mod]
        · rw [h]
          congr 2
          ring

/-- `GetBits` answers EOS exactly when fewer than `n` bits are left. -/
theorem getBits_eq_none_iff {n : Nat} {bits : List Bool} : getBits n bits = none ↔ bits.length < n := by
  rcases getBitsFrom_eq 0 n bits with ⟨h, hl⟩ | ⟨y, rest, _, hb, h⟩
  · exact ⟨fun _ => hl, fun _ => h⟩
  · refine ⟨fun h' => ?_, fun hl => ?_⟩
    · rw [getBits, h] at h'; cases h'
    · rw [hb, List.length_append, putBits_length] at hl; omega

/-- The bits of a group determine its value below `2^n`, and what follows it. -/
theorem putBits_append_inj {n x y : Nat} {r r' : List Bool} (hx : x < 2 ^ n) (hy : y < 2 ^ n)
    (h : putBits n x ++ r = putBits n y ++ r') : x = y ∧ r = r' := by
  obtain ⟨h1, h2⟩ := List.append_inj h (by simp)
  refine ⟨Nat.eq_of_testBit_eq fun i => ?_, h2⟩
  by_cases hi : i < n
  · rw [putBits_eq_map, putBits_eq_map] at h1
    have := List.map_inj_left.1 h1 (n - 1 - i) (List.mem_range.2 (by omega))
    rwa [show n - 1 - (n - 1 - i) = i by omega] at this
  · have hp := Nat.pow_le_pow_right (n := 2) (by omega) (not_lt.1 hi)
    rw [Nat.testBit_lt_two_pow (hx.trans_le hp), Nat.testBit_lt_two_pow (hy.trans_le hp)]

/-- `GetBits` answers the value `x` and leaves `rest` exactly when the bits are the group of `x` and then `rest`. -/
theorem getBits_eq_some_iff {n x : Nat} {bits rest : List Bool} :
    getBits n bits = some (x, rest) ↔ x < 2 ^ n ∧ bits = putBits n x ++ rest := by
  rcases getBitsFrom_eq 0 n bits with ⟨h, hl⟩ | ⟨y, r, hy, hb, h⟩
  · rw [getBits, h]
    refine ⟨fun h' => absurd h' (by simp), fun ⟨_, hb⟩ => ?_⟩
    rw [hb, List.length_append, putBits_length] at hl; omega
  · rw [getBits, h, Nat.zero_mul, Nat.zero_add]
    constructor
    · intro h'
      obtain ⟨rfl, rfl⟩ := Prod.mk.inj (Option.some.inj h')
      exact ⟨hy, hb⟩
    · rintro ⟨hx, hb'⟩
      obtain ⟨rfl, rfl⟩ := putBits_append_inj hy hx (hb.symm.trans hb')
      rfl

end Sys2Proof.Machine
end

