-- ==== Sys2Proof/Laws/Memory.lean ====
section
/-! SUPPORT. The plane store: what a read gives after a write and after the zero fill (R53, R173), that every memory
operation keeps the canonical form, and that stores in that form with the same cells are the same data. -/

namespace Sys2Proof.Machine

@[simp] theorem Memory.read?_nil (a : Nat) : Memory.read? [] a = none := rfl

/-- Reading a cell just written, and every other cell. -/
@[simp] theorem Memory.read?_write (p : Memory) (a a' : Nat) (v : Sample) :
    Memory.read? (Memory.write p a v) a' = if a = a' then some v else Memory.read? p a' := by
  induction p with
  | nil => simp [Memory.write, Memory.read?]
  | cons c rest ih =>
    by_cases h1 : a < c.1
    · simp [Memory.write, h1, Memory.read?]
    · by_cases h2 : a = c.1
      · subst h2
        by_cases h3 : c.1 = a' <;> simp [Memory.write, Memory.read?, h3]
      · simp only [Memory.write, h1, h2, if_false, Memory.read?, ih]
        by_cases h3 : c.1 = a'
        · have : a ≠ a' := fun h => h2 (h.trans h3.symm)
          simp [h3, this]
        · simp [h3]

/-- A write lists the written address and otherwise only cells that were listed. -/
theorem Memory.mem_write {p : Memory} {a : Nat} {v : Sample} {c : Host.Cell} (h : c ∈ Memory.write p a v) :
    c = (a, v) ∨ c ∈ p := by
  induction p with
  | nil => exact .inl (by simpa [Memory.write] using h)
  | cons d rest ih =>
    rw [Memory.write] at h
    split at h
    · simpa using h
    · split at h
      · rcases List.mem_cons.1 h with h | h
        · exact .inl h
        · exact .inr (List.mem_cons_of_mem _ h)
      · rcases List.mem_cons.1 h with h | h
        · exact .inr (h ▸ List.mem_cons_self)
        · exact (ih h).imp id (List.mem_cons_of_mem _)

/-- A write keeps the canonical form. -/
theorem Memory.write_wf {p : Memory} (h : Memory.wf p) (a : Nat) (v : Sample) : Memory.wf (Memory.write p a v) := by
  induction p with
  | nil => simp [Memory.write, Memory.wf]
  | cons d rest ih =>
    obtain ⟨hd, hr⟩ := List.pairwise_cons.1 h
    rw [Memory.write]
    split
    · rename_i hlt
      exact List.pairwise_cons.2 ⟨fun c hc => (List.mem_cons.1 hc).elim (fun e => e ▸ hlt)
        fun hc => hlt.trans (hd c hc), h⟩
    · split
      · rename_i heq
        exact List.pairwise_cons.2 ⟨fun c hc => heq ▸ hd c hc, hr⟩
      · rename_i h1 h2
        refine List.pairwise_cons.2 ⟨fun c hc => ?_, ih hr⟩
        rcases Memory.mem_write hc with rfl | hc
        · exact lt_of_le_of_ne (not_lt.1 h1) (Ne.symm h2)
        · exact hd c hc

/-- After the zero fill the first `n` cells hold 0 and every other cell what it held (R173). -/
@[simp] theorem Memory.read?_zeroFill (n : Nat) (p : Memory) (a : Nat) :
    Memory.read? (Memory.zeroFill n p) a = if a < n then some 0 else Memory.read? p a := by
  induction n with
  | zero => simp [Memory.zeroFill]
  | succ k ih =>
    rw [Memory.zeroFill, Memory.read?_write, ih]
    rcases lt_trichotomy a k with h | h | h
    · rw [if_neg (by omega), if_pos h, if_pos (by omega)]
    · rw [if_pos h.symm, if_pos (by omega)]
    · rw [if_neg (by omega), if_neg (by omega), if_neg (by omega)]

/-- The zero fill keeps the canonical form. -/
theorem Memory.zeroFill_wf (n : Nat) {p : Memory} (h : Memory.wf p) : Memory.wf (Memory.zeroFill n p) := by
  induction n with
  | zero => exact h
  | succ k ih => exact Memory.write_wf ih k 0

/-- The zero fill lists only its own cells and cells that were listed. -/
theorem Memory.mem_zeroFill {n : Nat} {p : Memory} {c : Host.Cell} (h : c ∈ Memory.zeroFill n p) :
    c.1 < n ∨ c ∈ p := by
  induction n with
  | zero => exact .inr h
  | succ k ih =>
    rcases Memory.mem_write h with rfl | h
    · exact .inl (Nat.lt_succ_self k)
    · exact (ih h).imp (fun h => by omega) id

/-- A cell at an address below every listed address is not written. -/
theorem Memory.read?_of_lt {p : Memory} {a : Nat} (h : ∀ c ∈ p, a < c.1) : Memory.read? p a = none := by
  induction p with
  | nil => rfl
  | cons c rest ih =>
    rw [Memory.read?, if_neg (by have := h c List.mem_cons_self; omega)]
    exact ih fun d hd => h d (List.mem_cons_of_mem _ hd)

/-- Two plane stores in canonical form whose cells read the same are the same data. -/
theorem Memory.ext {p p' : Memory} (h : Memory.wf p) (h' : Memory.wf p')
    (hr : ∀ a, Memory.read? p a = Memory.read? p' a) : p = p' := by
  induction p generalizing p' with
  | nil =>
    cases p' with
    | nil => rfl
    | cons c rest => simpa [Memory.read?] using hr c.1
  | cons c rest ih =>
    cases p' with
    | nil => simpa [Memory.read?] using hr c.1
    | cons c' rest' =>
      obtain ⟨hc, hw⟩ := List.pairwise_cons.1 h
      obtain ⟨hc', hw'⟩ := List.pairwise_cons.1 h'
      have hfirst : c.1 = c'.1 := by
        rcases lt_trichotomy c.1 c'.1 with hlt | heq | hlt
        · have := hr c.1
          rw [Memory.read?_of_lt (p := c' :: rest') fun d hd =>
            (List.mem_cons.1 hd).elim (fun e => e ▸ hlt) fun hd => hlt.trans (hc' d hd)] at this
          simp [Memory.read?] at this
        · exact heq
        · have := hr c'.1
          rw [Memory.read?_of_lt (p := c :: rest) fun d hd =>
            (List.mem_cons.1 hd).elim (fun e => e ▸ hlt) fun hd => hlt.trans (hc d hd)] at this
          simp [Memory.read?] at this
      have hval : c.2 = c'.2 := by simpa [Memory.read?, hfirst] using hr c.1
      have hrest : rest = rest' := by
        refine ih hw hw' fun a => ?_
        by_cases ha : c.1 = a
        · subst ha
          rw [Memory.read?_of_lt hc, Memory.read?_of_lt fun d hd => hfirst ▸ hc' d hd]
        · have := hr a
          rwa [Memory.read?, if_neg ha, Memory.read?, if_neg (hfirst ▸ ha)] at this
      rw [hrest, Prod.ext hfirst hval]

/-- `P[a]` after a write of one cell. -/
@[simp] theorem State.cell_writeCell (s : State) (a a' : Nat) (v : Sample) :
    (s.writeCell a v).cell a' = if a = a' then v else s.cell a' := by
  simp only [State.cell, State.writeCell, Memory.read?_write]
  split <;> rfl

/-- A written cell's value does not depend on any free value. -/
theorem State.cell_of_written {s : State} {a : Nat} {v : Sample} (h : Memory.read? s.plane a = some v) :
    s.cell a = v := by
  rw [State.cell, h, Option.getD_some]

/-- A coordinate read gives a sample or 0: a value 0 to 255 (R52, R53). -/
theorem State.planeRead_range (s : State) (row col : Int) : 0 ≤ s.planeRead row col ∧ s.planeRead row col ≤ 255 := by
  unfold State.planeRead
  split
  · have := (s.cell (row * s.cols + col).toNat).isLt
    omega
  · omega

end Sys2Proof.Machine
end

