-- ==== Sys2Proof/Laws/State.lean ====
section
/-! SUPPORT. Each field of the state after each of the model's updates, so that no proof unfolds a record update. -/

namespace Sys2Proof.Machine

variable (s : State)

/-! complete -/

@[simp] theorem State.complete_m (c : Status) (x : Bool) : (s.complete c x).m = s.m := rfl
@[simp] theorem State.complete_b (c : Status) (x : Bool) : (s.complete c x).b = s.b := rfl
@[simp] theorem State.complete_u (c : Status) (x : Bool) : (s.complete c x).u = s.u := rfl
@[simp] theorem State.complete_rows (c : Status) (x : Bool) : (s.complete c x).rows = s.rows := rfl
@[simp] theorem State.complete_cols (c : Status) (x : Bool) : (s.complete c x).cols = s.cols := rfl
@[simp] theorem State.complete_plane (c : Status) (x : Bool) : (s.complete c x).plane = s.plane := rfl
@[simp] theorem State.complete_paddr (c : Status) (x : Bool) : (s.complete c x).paddr = s.paddr := rfl
@[simp] theorem State.complete_stream (c : Status) (x : Bool) : (s.complete c x).stream = s.stream := rfl
@[simp] theorem State.complete_rpos (c : Status) (x : Bool) : (s.complete c x).rpos = s.rpos := rfl
@[simp] theorem State.complete_last (c : Status) (x : Bool) : (s.complete c x).last = c := rfl
@[simp] theorem State.complete_midsym (c : Status) (x : Bool) : (s.complete c x).midsym = midsymAfter c x := rfl
@[simp] theorem State.complete_errs (c : Status) (x : Bool) : (s.complete c x).errs = errsAfter c s.errs := rfl
@[simp] theorem State.complete_result (c : Status) (x : Bool) : (s.complete c x).result = s.result := rfl
@[simp] theorem State.complete_count (c : Status) (x : Bool) : (s.complete c x).count = s.count := rfl
@[simp] theorem State.complete_params (c : Status) (x : Bool) : (s.complete c x).params = s.params := rfl
@[simp] theorem State.complete_resetCount (c : Status) (x : Bool) : (s.complete c x).resetCount = s.resetCount := rfl
@[simp] theorem State.complete_host (c : Status) (x : Bool) : (s.complete c x).host = s.host := rfl

/-! append -/

@[simp] theorem State.append_m (bits : List Bool) : (s.append bits).m = s.m := rfl
@[simp] theorem State.append_b (bits : List Bool) : (s.append bits).b = s.b := rfl
@[simp] theorem State.append_u (bits : List Bool) : (s.append bits).u = s.u := rfl
@[simp] theorem State.append_rows (bits : List Bool) : (s.append bits).rows = s.rows := rfl
@[simp] theorem State.append_cols (bits : List Bool) : (s.append bits).cols = s.cols := rfl
@[simp] theorem State.append_plane (bits : List Bool) : (s.append bits).plane = s.plane := rfl
@[simp] theorem State.append_paddr (bits : List Bool) : (s.append bits).paddr = s.paddr := rfl
@[simp] theorem State.append_stream (bits : List Bool) : (s.append bits).stream = s.stream ++ bits := rfl
@[simp] theorem State.append_rpos (bits : List Bool) : (s.append bits).rpos = s.rpos := rfl
@[simp] theorem State.append_last (bits : List Bool) : (s.append bits).last = s.last := rfl
@[simp] theorem State.append_midsym (bits : List Bool) : (s.append bits).midsym = s.midsym := rfl
@[simp] theorem State.append_errs (bits : List Bool) : (s.append bits).errs = s.errs := rfl
@[simp] theorem State.append_result (bits : List Bool) : (s.append bits).result = s.result := rfl
@[simp] theorem State.append_count (bits : List Bool) : (s.append bits).count = s.count := rfl
@[simp] theorem State.append_params (bits : List Bool) : (s.append bits).params = s.params := rfl
@[simp] theorem State.append_resetCount (bits : List Bool) : (s.append bits).resetCount = s.resetCount := rfl
@[simp] theorem State.append_host (bits : List Bool) : (s.append bits).host = s.host := rfl

/-! consumeTo -/

@[simp] theorem State.consumeTo_m (rest : List Bool) : (s.consumeTo rest).m = s.m := rfl
@[simp] theorem State.consumeTo_b (rest : List Bool) : (s.consumeTo rest).b = s.b := rfl
@[simp] theorem State.consumeTo_u (rest : List Bool) : (s.consumeTo rest).u = s.u := rfl
@[simp] theorem State.consumeTo_rows (rest : List Bool) : (s.consumeTo rest).rows = s.rows := rfl
@[simp] theorem State.consumeTo_cols (rest : List Bool) : (s.consumeTo rest).cols = s.cols := rfl
@[simp] theorem State.consumeTo_plane (rest : List Bool) : (s.consumeTo rest).plane = s.plane := rfl
@[simp] theorem State.consumeTo_paddr (rest : List Bool) : (s.consumeTo rest).paddr = s.paddr := rfl
@[simp] theorem State.consumeTo_stream (rest : List Bool) : (s.consumeTo rest).stream = s.stream := rfl
@[simp] theorem State.consumeTo_rpos (rest : List Bool) : (s.consumeTo rest).rpos = s.rpos + (s.unread.length - rest.length) := rfl
@[simp] theorem State.consumeTo_last (rest : List Bool) : (s.consumeTo rest).last = s.last := rfl
@[simp] theorem State.consumeTo_midsym (rest : List Bool) : (s.consumeTo rest).midsym = s.midsym := rfl
@[simp] theorem State.consumeTo_errs (rest : List Bool) : (s.consumeTo rest).errs = s.errs := rfl
@[simp] theorem State.consumeTo_result (rest : List Bool) : (s.consumeTo rest).result = s.result := rfl
@[simp] theorem State.consumeTo_count (rest : List Bool) : (s.consumeTo rest).count = s.count := rfl
@[simp] theorem State.consumeTo_params (rest : List Bool) : (s.consumeTo rest).params = s.params := rfl
@[simp] theorem State.consumeTo_resetCount (rest : List Bool) : (s.consumeTo rest).resetCount = s.resetCount := rfl
@[simp] theorem State.consumeTo_host (rest : List Bool) : (s.consumeTo rest).host = s.host := rfl

/-! writeCell -/

@[simp] theorem State.writeCell_m (a : Nat) (v : Sample) : (s.writeCell a v).m = s.m := rfl
@[simp] theorem State.writeCell_b (a : Nat) (v : Sample) : (s.writeCell a v).b = s.b := rfl
@[simp] theorem State.writeCell_u (a : Nat) (v : Sample) : (s.writeCell a v).u = s.u := rfl
@[simp] theorem State.writeCell_rows (a : Nat) (v : Sample) : (s.writeCell a v).rows = s.rows := rfl
@[simp] theorem State.writeCell_cols (a : Nat) (v : Sample) : (s.writeCell a v).cols = s.cols := rfl
@[simp] theorem State.writeCell_plane (a : Nat) (v : Sample) : (s.writeCell a v).plane = Memory.write s.plane a v := rfl
@[simp] theorem State.writeCell_paddr (a : Nat) (v : Sample) : (s.writeCell a v).paddr = s.paddr := rfl
@[simp] theorem State.writeCell_stream (a : Nat) (v : Sample) : (s.writeCell a v).stream = s.stream := rfl
@[simp] theorem State.writeCell_rpos (a : Nat) (v : Sample) : (s.writeCell a v).rpos = s.rpos := rfl
@[simp] theorem State.writeCell_last (a : Nat) (v : Sample) : (s.writeCell a v).last = s.last := rfl
@[simp] theorem State.writeCell_midsym (a : Nat) (v : Sample) : (s.writeCell a v).midsym = s.midsym := rfl
@[simp] theorem State.writeCell_errs (a : Nat) (v : Sample) : (s.writeCell a v).errs = s.errs := rfl
@[simp] theorem State.writeCell_result (a : Nat) (v : Sample) : (s.writeCell a v).result = s.result := rfl
@[simp] theorem State.writeCell_count (a : Nat) (v : Sample) : (s.writeCell a v).count = s.count := rfl
@[simp] theorem State.writeCell_params (a : Nat) (v : Sample) : (s.writeCell a v).params = s.params := rfl
@[simp] theorem State.writeCell_resetCount (a : Nat) (v : Sample) : (s.writeCell a v).resetCount = s.resetCount := rfl
@[simp] theorem State.writeCell_host (a : Nat) (v : Sample) : (s.writeCell a v).host = s.host := rfl

/-! encodedAt -/

@[simp] theorem State.encodedAt_m (k : Nat) : (s.encodedAt k).m = s.m := rfl
@[simp] theorem State.encodedAt_b (k : Nat) : (s.encodedAt k).b = s.b := rfl
@[simp] theorem State.encodedAt_u (k : Nat) : (s.encodedAt k).u = s.u := rfl
@[simp] theorem State.encodedAt_rows (k : Nat) : (s.encodedAt k).rows = s.rows := rfl
@[simp] theorem State.encodedAt_cols (k : Nat) : (s.encodedAt k).cols = s.cols := rfl
@[simp] theorem State.encodedAt_plane (k : Nat) : (s.encodedAt k).plane = s.plane := rfl
@[simp] theorem State.encodedAt_paddr (k : Nat) : (s.encodedAt k).paddr = s.paddr := rfl
@[simp] theorem State.encodedAt_stream (k : Nat) : (s.encodedAt k).stream = s.stream ++ symbolBits s.rice (s.residual k) := rfl
@[simp] theorem State.encodedAt_rpos (k : Nat) : (s.encodedAt k).rpos = s.rpos := rfl
@[simp] theorem State.encodedAt_last (k : Nat) : (s.encodedAt k).last = s.last := rfl
@[simp] theorem State.encodedAt_midsym (k : Nat) : (s.encodedAt k).midsym = s.midsym := rfl
@[simp] theorem State.encodedAt_errs (k : Nat) : (s.encodedAt k).errs = s.errs := rfl
@[simp] theorem State.encodedAt_result (k : Nat) : (s.encodedAt k).result = s.result := rfl
@[simp] theorem State.encodedAt_count (k : Nat) : (s.encodedAt k).count = k + 1 := rfl
@[simp] theorem State.encodedAt_params (k : Nat) : (s.encodedAt k).params = s.params := rfl
@[simp] theorem State.encodedAt_resetCount (k : Nat) : (s.encodedAt k).resetCount = s.resetCount := rfl
@[simp] theorem State.encodedAt_host (k : Nat) : (s.encodedAt k).host = s.host := rfl

/-! decodedAt -/

@[simp] theorem State.decodedAt_m (k : Nat) (d : Int) (rest : List Bool) : (s.decodedAt k d rest).m = s.m := rfl
@[simp] theorem State.decodedAt_b (k : Nat) (d : Int) (rest : List Bool) : (s.decodedAt k d rest).b = s.b := rfl
@[simp] theorem State.decodedAt_u (k : Nat) (d : Int) (rest : List Bool) : (s.decodedAt k d rest).u = s.u := rfl
@[simp] theorem State.decodedAt_rows (k : Nat) (d : Int) (rest : List Bool) : (s.decodedAt k d rest).rows = s.rows := rfl
@[simp] theorem State.decodedAt_cols (k : Nat) (d : Int) (rest : List Bool) : (s.decodedAt k d rest).cols = s.cols := rfl
@[simp] theorem State.decodedAt_plane (k : Nat) (d : Int) (rest : List Bool) : (s.decodedAt k d rest).plane = Memory.write s.plane k (wrapSample (s.predictAt k + d)) := rfl
@[simp] theorem State.decodedAt_paddr (k : Nat) (d : Int) (rest : List Bool) : (s.decodedAt k d rest).paddr = s.paddr := rfl
@[simp] theorem State.decodedAt_stream (k : Nat) (d : Int) (rest : List Bool) : (s.decodedAt k d rest).stream = s.stream := rfl
@[simp] theorem State.decodedAt_rpos (k : Nat) (d : Int) (rest : List Bool) : (s.decodedAt k d rest).rpos = s.rpos + (s.unread.length - rest.length) := rfl
@[simp] theorem State.decodedAt_last (k : Nat) (d : Int) (rest : List Bool) : (s.decodedAt k d rest).last = s.last := rfl
@[simp] theorem State.decodedAt_midsym (k : Nat) (d : Int) (rest : List Bool) : (s.decodedAt k d rest).midsym = s.midsym := rfl
@[simp] theorem State.decodedAt_errs (k : Nat) (d : Int) (rest : List Bool) : (s.decodedAt k d rest).errs = s.errs := rfl
@[simp] theorem State.decodedAt_result (k : Nat) (d : Int) (rest : List Bool) : (s.decodedAt k d rest).result = s.result := rfl
@[simp] theorem State.decodedAt_count (k : Nat) (d : Int) (rest : List Bool) : (s.decodedAt k d rest).count = k + 1 := rfl
@[simp] theorem State.decodedAt_params (k : Nat) (d : Int) (rest : List Bool) : (s.decodedAt k d rest).params = s.params := rfl
@[simp] theorem State.decodedAt_resetCount (k : Nat) (d : Int) (rest : List Bool) : (s.decodedAt k d rest).resetCount = s.resetCount := rfl
@[simp] theorem State.decodedAt_host (k : Nat) (d : Int) (rest : List Bool) : (s.decodedAt k d rest).host = s.host := rfl

/-! taken -/

@[simp] theorem State.taken_m : (s.taken).m = s.m := rfl
@[simp] theorem State.taken_b : (s.taken).b = s.b := rfl
@[simp] theorem State.taken_u : (s.taken).u = s.u := rfl
@[simp] theorem State.taken_rows : (s.taken).rows = s.rows := rfl
@[simp] theorem State.taken_cols : (s.taken).cols = s.cols := rfl
@[simp] theorem State.taken_plane : (s.taken).plane = s.plane := rfl
@[simp] theorem State.taken_paddr : (s.taken).paddr = s.paddr := rfl
@[simp] theorem State.taken_stream : (s.taken).stream = s.stream := rfl
@[simp] theorem State.taken_rpos : (s.taken).rpos = s.rpos := rfl
@[simp] theorem State.taken_last : (s.taken).last = s.last := rfl
@[simp] theorem State.taken_midsym : (s.taken).midsym = s.midsym := rfl
@[simp] theorem State.taken_errs : (s.taken).errs = s.errs := rfl
@[simp] theorem State.taken_result : (s.taken).result = s.result := rfl
@[simp] theorem State.taken_count : (s.taken).count = s.count := rfl
@[simp] theorem State.taken_params : (s.taken).params = s.params := rfl
@[simp] theorem State.taken_resetCount : (s.taken).resetCount = s.resetCount := rfl
@[simp] theorem State.taken_host : (s.taken).host = s.host.tail := rfl

/-! afterReset -/

@[simp] theorem State.afterReset_m : (s.afterReset).m = 0 := rfl
@[simp] theorem State.afterReset_b : (s.afterReset).b = 0 := rfl
@[simp] theorem State.afterReset_u : (s.afterReset).u = 0 := rfl
@[simp] theorem State.afterReset_rows : (s.afterReset).rows = 0 := rfl
@[simp] theorem State.afterReset_cols : (s.afterReset).cols = 0 := rfl
@[simp] theorem State.afterReset_plane : (s.afterReset).plane = [] := rfl
@[simp] theorem State.afterReset_paddr : (s.afterReset).paddr = 0 := rfl
@[simp] theorem State.afterReset_stream : (s.afterReset).stream = [] := rfl
@[simp] theorem State.afterReset_rpos : (s.afterReset).rpos = 0 := rfl
@[simp] theorem State.afterReset_last : (s.afterReset).last = .ok := rfl
@[simp] theorem State.afterReset_midsym : (s.afterReset).midsym = false := rfl
@[simp] theorem State.afterReset_errs : (s.afterReset).errs = 0 := rfl
@[simp] theorem State.afterReset_result : (s.afterReset).result = 0 := rfl
@[simp] theorem State.afterReset_count : (s.afterReset).count = 0 := rfl
@[simp] theorem State.afterReset_params : (s.afterReset).params = s.params := rfl
@[simp] theorem State.afterReset_resetCount : (s.afterReset).resetCount = s.resetCount + 1 := rfl
@[simp] theorem State.afterReset_host : (s.afterReset).host = s.host := rfl

/-! withFetchWord -/

@[simp] theorem State.withFetchWord_m (nbits w : Nat) : (s.withFetchWord nbits w).m = s.m := rfl
@[simp] theorem State.withFetchWord_b (nbits w : Nat) : (s.withFetchWord nbits w).b = s.b := rfl
@[simp] theorem State.withFetchWord_u (nbits w : Nat) : (s.withFetchWord nbits w).u = s.u := rfl
@[simp] theorem State.withFetchWord_rows (nbits w : Nat) : (s.withFetchWord nbits w).rows = s.rows := rfl
@[simp] theorem State.withFetchWord_cols (nbits w : Nat) : (s.withFetchWord nbits w).cols = s.cols := rfl
@[simp] theorem State.withFetchWord_plane (nbits w : Nat) : (s.withFetchWord nbits w).plane = s.plane := rfl
@[simp] theorem State.withFetchWord_paddr (nbits w : Nat) : (s.withFetchWord nbits w).paddr = s.paddr := rfl
@[simp] theorem State.withFetchWord_stream (nbits w : Nat) : (s.withFetchWord nbits w).stream = s.stream := rfl
@[simp] theorem State.withFetchWord_rpos (nbits w : Nat) : (s.withFetchWord nbits w).rpos = s.rpos := rfl
@[simp] theorem State.withFetchWord_last (nbits w : Nat) : (s.withFetchWord nbits w).last = s.last := rfl
@[simp] theorem State.withFetchWord_midsym (nbits w : Nat) : (s.withFetchWord nbits w).midsym = s.midsym := rfl
@[simp] theorem State.withFetchWord_errs (nbits w : Nat) : (s.withFetchWord nbits w).errs = s.errs := rfl
@[simp] theorem State.withFetchWord_result (nbits w : Nat) : (s.withFetchWord nbits w).result = s.result := rfl
@[simp] theorem State.withFetchWord_count (nbits w : Nat) : (s.withFetchWord nbits w).count = s.count := rfl
@[simp] theorem State.withFetchWord_params (nbits w : Nat) : (s.withFetchWord nbits w).params = s.params := rfl
@[simp] theorem State.withFetchWord_resetCount (nbits w : Nat) : (s.withFetchWord nbits w).resetCount = s.resetCount := rfl
@[simp] theorem State.withFetchWord_host (nbits w : Nat) : (s.withFetchWord nbits w).host = .command (tableWord nbits w) :: s.host := rfl

/-! The views of a state are those of the fields they are made of. -/

/-- The reads that are left depend on the stream and the cursor alone. -/
theorem State.unread_congr {s t : State} (hs : t.stream = s.stream) (hr : t.rpos = s.rpos) :
    t.unread = s.unread := by
  rw [State.unread, State.unread, hs, hr]

/-- The coder's parameters are the three registers. -/
theorem State.rice_congr {s t : State} (hm : t.m = s.m) (hb : t.b = s.b) (hu : t.u = s.u) :
    t.rice = s.rice := by
  rw [State.rice, State.rice, hm, hb, hu]

/-- A cell depends on the plane store and, unwritten, on the reset count alone. -/
theorem State.cell_congr {s t : State} (hp : t.plane = s.plane) (hr : t.resetCount = s.resetCount) (a : Nat) :
    t.cell a = s.cell a := by
  rw [State.cell, State.cell, hp, hr]

end Sys2Proof.Machine
end

