-- ==== Sys2Proof/Laws/Ops.lean ====
section
/-! SUPPORT. The shared operations on the state: the cursor, the capacity, the value domain, and the completion of a
command, each with what it can answer. -/

namespace Sys2Proof.Machine

/-! The cursor. -/

@[simp] theorem State.unread_length (s : State) : s.unread.length = s.slen - s.rpos := by
  simp [State.unread, State.slen]

/-- Reads never move the cursor beyond the stream (R33). -/
theorem State.consumeTo_rpos_le {s : State} (h : s.rpos ≤ s.slen) (rest : List Bool) :
    (s.consumeTo rest).rpos ≤ s.slen := by
  simp only [State.consumeTo_rpos, State.unread_length]; omega

/-- When every bit is consumed, `RPOS = SLEN` (R59, R138). -/
theorem State.consumeTo_nil_rpos {s : State} (h : s.rpos ≤ s.slen) : (s.consumeTo []).rpos = s.slen := by
  simp only [State.consumeTo_rpos, State.unread_length, List.length_nil]; omega

/-- The cursor advances by exactly the number of bits read. -/
theorem State.consumeTo_rpos_of_append {s : State} {pre rest : List Bool} (h : s.unread = pre ++ rest) :
    (s.consumeTo rest).rpos = s.rpos + pre.length := by
  simp only [State.consumeTo_rpos, h, List.length_append]; omega

/-- After the reads, what is left to read is what they left. -/
theorem State.unread_consumeTo {s : State} {pre rest : List Bool} (h : s.unread = pre ++ rest) :
    (s.consumeTo rest).unread = rest := by
  have hr := State.consumeTo_rpos_of_append h
  rw [State.unread, State.consumeTo_stream, hr, ← List.drop_drop]
  exact (congrArg (List.drop pre.length) h).trans (by simp)

/-! The capacity. -/

/-- A write has room exactly when it keeps `SLEN ≤ STREAM_CAP` (R222). -/
theorem State.roomFor_iff {s : State} {n : Nat} :
    s.roomFor n = true ↔ ∀ cap ∈ s.params.streamCap, s.slen + n ≤ cap := by
  unfold State.roomFor
  cases s.params.streamCap <;> simp

@[simp] theorem State.slen_append (s : State) (bits : List Bool) :
    (s.append bits).slen = s.slen + bits.length := by
  simp [State.slen]

/-! The value domain. -/

/-- With VAL_BITS unbounded every value fits (U6). -/
theorem valuesFit_default {p : Config.Params} (h : p.valBits = none) (vs : List Int) : valuesFit p vs = true := by
  simp [valuesFit, fitsDomain, h]

@[simp] theorem valuesFit_nil (p : Config.Params) : valuesFit p [] = true := rfl

@[simp] theorem valuesFit_cons (p : Config.Params) (v : Int) (vs : List Int) :
    valuesFit p (v :: vs) = (fitsDomain p v && valuesFit p vs) := rfl

@[simp] theorem valuesFit_append (p : Config.Params) (vs ws : List Int) :
    valuesFit p (vs ++ ws) = (valuesFit p vs && valuesFit p ws) := by
  simp [valuesFit]

/-- Values within the bounds of a finite VAL_BITS fit. -/
theorem valuesFit_of_bounds {p : Config.Params} {n : Nat} (h : p.valBits = some n) {vs : List Int}
    (hv : ∀ v ∈ vs, -(2 ^ n) ≤ 2 * v ∧ 2 * v < 2 ^ n) : valuesFit p vs = true := by
  simpa [valuesFit, fitsDomain, h] using hv

/-- A command goes on exactly when its values fit. -/
theorem withValues_next_iff {s t : State} {vs : List Int} {k : Answer} :
    withValues s vs k = .next t ↔ valuesFit s.params vs = true ∧ k = .next t := by
  unfold withValues
  split <;> simp [*]

theorem withValues_of_fit {s : State} {vs : List Int} (h : valuesFit s.params vs = true) (k : Answer) :
    withValues s vs k = k := if_pos h

/-- A command stops here only with its values outside the domain, by that name. -/
theorem withValues_refused {s : State} {vs : List Int} {k : Answer} {r : Refusal}
    (h : withValues s vs k = .refused r) :
    (r = .valueOutsideDomain ∧ s.params.valBits ≠ none) ∨ k = .refused r := by
  unfold withValues at h
  split at h
  · exact .inr h
  · rename_i hv
    refine .inl ⟨by injection h with h; exact h.symm, fun hn => hv (valuesFit_default hn vs)⟩

/-! Completing a command. -/

@[simp] theorem succeed_eq (s : State) : succeed s = .next (s.complete .ok false) := rfl

@[simp] theorem raise_eq (c : Status) (s : State) : raise c s = .next (s.complete c false) := rfl

@[simp] theorem raiseIncomplete_eq (x : Bool) (s : State) :
    raiseIncomplete x s = .next (s.complete .incompleteStream x) := rfl

@[simp] theorem midsymAfter_false (c : Status) : midsymAfter c false = false := by simp [midsymAfter]

@[simp] theorem midsymAfter_incomplete (x : Bool) : midsymAfter .incompleteStream x = x := by simp [midsymAfter]

@[simp] theorem errsAfter_ok (e : BitVec 8) : errsAfter .ok e = e := rfl

/-- A completion sets no reserved sticky bit: ERRS[0] and ERRS[7] keep their values (R216). -/
theorem errsAfter_reserved (c : Status) (e : BitVec 8) :
    (errsAfter c e).getLsbD 0 = e.getLsbD 0 ∧ (errsAfter c e).getLsbD 7 = e.getLsbD 7 := by
  cases c <;> simp [errsAfter, Status.code]

/-- A completion with a code other than OK sets that code's sticky bit (R37). -/
theorem errsAfter_sets {c : Status} (h : c ≠ .ok) (e : BitVec 8) : (errsAfter c e).getLsbD c.code = true := by
  cases c <;> simp [errsAfter, Status.code] at *

end Sys2Proof.Machine
end

