-- ==== Sys2Proof/Laws/Symbol.lean ====
section
/-! SUPPORT. The Golomb-Rice coder: `clog2`, and for each reading function everything it can answer (R12, R130 to
R139). -/

namespace Sys2Proof.Machine

/-! `clog2`. -/

theorem leastPower_spec (m : Nat) (fuel b : Nat) (hf : m ≤ 2 ^ (b + fuel)) (hb : ∀ c < b, 2 ^ c < m) :
    m ≤ 2 ^ leastPower m fuel b ∧ ∀ c < leastPower m fuel b, 2 ^ c < m := by
  induction fuel generalizing b with
  | zero => exact ⟨hf, hb⟩
  | succ f ih =>
    rw [leastPower]
    split
    · exact ⟨by assumption, hb⟩
    · rename_i h
      refine ih (b + 1) (by rwa [Nat.add_right_comm, Nat.add_assoc]) fun c hc => ?_
      rcases Nat.lt_succ_iff_lt_or_eq.1 hc with hc | rfl
      · exact hb c hc
      · omega

/-- `2^clog2(m) ≥ m` (R12). -/
theorem le_two_pow_clog2 (m : Nat) : m ≤ 2 ^ clog2 m :=
  (leastPower_spec m m 0 (by simpa using Nat.lt_two_pow_self.le) (by simp)).1

/-- Every smaller power is below `m` (R12). -/
theorem two_pow_lt_of_lt_clog2 {m c : Nat} (h : c < clog2 m) : 2 ^ c < m :=
  (leastPower_spec m m 0 (by simpa using Nat.lt_two_pow_self.le) (by simp)).2 c h

/-- `clog2(m) = 0` exactly for `m ≤ 1`. -/
theorem clog2_eq_zero_iff {m : Nat} : clog2 m = 0 ↔ m ≤ 1 := by
  constructor
  · intro h; simpa [h] using le_two_pow_clog2 m
  · intro h
    by_contra hne
    have := two_pow_lt_of_lt_clog2 (m := m) (c := 0) (by omega)
    simp at this; omega

@[simp] theorem riceOf_m (m : Nat) : (riceOf m).m = m := rfl

@[simp] theorem riceOf_b (m : Nat) : (riceOf m).b = clog2 m := rfl

@[simp] theorem riceOf_u (m : Nat) : (riceOf m).u = 2 ^ clog2 m - m := rfl

@[simp] theorem State.rice_m (s : State) : s.rice.m = s.m := rfl

@[simp] theorem State.rice_b (s : State) : s.rice.b = s.b := rfl

@[simp] theorem State.rice_u (s : State) : s.rice.u = s.u := rfl

/-! The lengths. -/

@[simp] theorem remainderBits_length (c : Rice) (r : Nat) : (remainderBits c r).length = remainderLength c r := by
  unfold remainderBits remainderLength
  split
  · rfl
  · split <;> simp

/-! The remainder. -/

/-- The remainder of a division by `m ≥ 1` is below `m` (R144). -/
theorem remainder_lt {c : Rice} (h : 1 ≤ c.m) (v : Int) : remainder c v < c.m := by
  have := Nat.mod_lt v.natAbs h
  have := Nat.div_add_mod v.natAbs c.m
  unfold remainder quotient
  rw [Nat.mul_comm]; omega

/-- `q*m + r = magnitude` (R144). -/
theorem quotient_remainder (c : Rice) (v : Int) : quotient c v * c.m + remainder c v = v.natAbs := by
  have := Nat.div_mul_le_self v.natAbs c.m
  unfold remainder quotient
  omega

/-- Everything `TBDecode(m)` can answer with a value: a remainder below `m`, its own code having been read (R132). -/
theorem takeRemainder_eq_some_iff {m r : Nat} {bits rest : List Bool} (hm : 1 ≤ m) :
    takeRemainder (riceOf m) bits = some (r, rest) ↔ r < m ∧ bits = remainderBits (riceOf m) r ++ rest := by
  unfold takeRemainder remainderBits
  simp only [riceOf_b, riceOf_u]
  by_cases hb : clog2 m = 0
  · have : m = 1 := by have := clog2_eq_zero_iff.1 hb; omega
    simp only [hb, if_true, Option.some.injEq, Prod.mk.injEq, List.nil_append]
    constructor
    · rintro ⟨rfl, rfl⟩; exact ⟨by omega, rfl⟩
    · rintro ⟨hr, rfl⟩; exact ⟨by omega, rfl⟩
  · simp only [hb, if_false]
    obtain ⟨k, hk⟩ : ∃ k, clog2 m = k + 1 := ⟨clog2 m - 1, by omega⟩
    have hle := le_two_pow_clog2 m
    have hlt := two_pow_lt_of_lt_clog2 (m := m) (c := k) (by omega)
    rw [hk] at hle
    simp only [hk, Nat.add_sub_cancel]
    have h2 : 2 ^ (k + 1) = 2 * 2 ^ k := by rw [Nat.pow_succ, Nat.mul_comm]
    rcases hg : getBits k bits with _ | ⟨x, after⟩
    · have hl := getBits_eq_none_iff.1 hg
      simp only [reduceCtorEq, false_iff, not_and]
      rintro _ rfl
      rw [List.length_append] at hl
      split at hl
      · rw [putBits_length] at hl; omega
      · rw [putBits_length] at hl; omega
    · obtain ⟨hx, hbits⟩ := getBits_eq_some_iff.1 hg
      simp only
      by_cases hs : x < 2 ^ (k + 1) - m
      · simp only [hs, if_true, Option.some.injEq, Prod.mk.injEq]
        constructor
        · rintro ⟨rfl, rfl⟩
          exact ⟨by omega, by rw [if_pos hs, hbits]⟩
        · rintro ⟨hr, hb'⟩
          by_cases hr' : r < 2 ^ (k + 1) - m
          · rw [if_pos hr', hbits] at hb'
            exact putBits_append_inj hx (by omega) hb'
          · rw [if_neg hr', hbits, putBits_succ_last, List.append_assoc] at hb'
            exact absurd (putBits_append_inj hx (by omega) hb').1 (by omega)
      · simp only [hs, if_false]
        cases after with
        | nil =>
          simp only [getBit_nil, reduceCtorEq, false_iff, not_and]
          intro hr hb'
          split at hb'
          · rename_i hr'
            rw [hbits] at hb'
            exact absurd (putBits_append_inj hx (by omega) hb').1 (by omega)
          · have := congrArg List.length (hbits.symm.trans hb')
            simp at this; omega
        | cons t after =>
          have hcode : putBits k x ++ t :: after = putBits (k + 1) (2 * x + t.toNat) ++ after := by
            rw [putBits_succ_last, List.append_assoc]
            congr 2
            · have := t.toNat_lt
              omega
            · cases t <;> simp [Nat.testBit_zero]
          simp only [getBit_cons, Option.some.injEq, Prod.mk.injEq]
          have ht := t.toNat_lt
          constructor
          · rintro ⟨rfl, rfl⟩
            refine ⟨by omega, ?_⟩
            rw [if_neg (by omega), hbits, hcode]
            congr 2
            omega
          · rintro ⟨hr, hb'⟩
            by_cases hr' : r < 2 ^ (k + 1) - m
            · rw [if_pos hr', hbits] at hb'
              exact absurd (putBits_append_inj hx (by omega) hb').1 (by omega)
            · rw [if_neg hr', hbits, hcode] at hb'
              obtain ⟨h1, h2⟩ := putBits_append_inj (by omega) (by omega) hb'
              exact ⟨by omega, h2⟩

/-- The remainder is `magnitude mod m`. -/
theorem remainder_eq_mod (c : Rice) (v : Int) : remainder c v = v.natAbs % c.m := by
  have := Nat.div_add_mod v.natAbs c.m
  unfold remainder quotient
  rw [Nat.mul_comm]; omega

/-- A symbol has `SymLen` bits (R142). -/
@[simp] theorem symbolBits_length (c : Rice) (v : Int) : (symbolBits c v).length = symLen c v := by
  simp [symbolBits, symLen]; omega

/-! The unary field. -/

/-- The unary count is read exactly from that many ones and a zero (R136). -/
theorem takeUnary_eq_some_iff {q q' : Nat} {bits rest : List Bool} :
    takeUnary q bits = some (q', rest) ↔ ∃ n, q' = q + n ∧ bits = List.replicate n true ++ false :: rest := by
  induction bits generalizing q with
  | nil =>
    simp only [takeUnary, reduceCtorEq, false_iff, not_exists, not_and]
    rintro n - h
    have := congrArg List.length h
    simp at this
  | cons t bits ih =>
    cases t with
    | false =>
      simp only [takeUnary, Option.some.injEq, Prod.mk.injEq]
      constructor
      · rintro ⟨rfl, rfl⟩; exact ⟨0, rfl, rfl⟩
      · rintro ⟨n, rfl, h⟩
        cases n with
        | zero => simpa using h
        | succ n => simp [List.replicate_succ] at h
    | true =>
      rw [takeUnary, ih]
      constructor
      · rintro ⟨n, rfl, rfl⟩; exact ⟨n + 1, by omega, by simp [List.replicate_succ]⟩
      · rintro ⟨n, rfl, h⟩
        cases n with
        | zero => simp at h
        | succ n => exact ⟨n, by omega, by simpa [List.replicate_succ] using h⟩

/-- The unary field has no end exactly when every bit left is a one (R138). -/
theorem takeUnary_eq_none_iff {q : Nat} {bits : List Bool} : takeUnary q bits = none ↔ ∀ t ∈ bits, t = true := by
  induction bits generalizing q with
  | nil => simp [takeUnary]
  | cons t bits ih => cases t <;> simp [takeUnary, ih]

/-! The whole symbol. -/

/-- Reading ends at once exactly when no bit is left (R137). -/
theorem takeSymbol_endOfStream_iff {c : Rice} {bits : List Bool} :
    takeSymbol c bits = .endOfStream ↔ bits = [] := by
  cases bits with
  | nil => simp [takeSymbol]
  | cons t bits =>
    simp only [takeSymbol, getBit_cons, reduceCtorEq, iff_false]
    split
    · simp
    · split <;> simp

/-- A value is read exactly from a sign bit, `q` ones and a zero, and the code of a remainder `r < m` (R136). -/
theorem takeSymbol_value_iff {m : Nat} {bits rest : List Bool} {v : Int} (hm : 1 ≤ m) :
    takeSymbol (riceOf m) bits = .value v rest ↔
      ∃ sign q r, r < m ∧ v = signed sign (q * m + r) ∧
        bits = sign :: (List.replicate q true ++ false :: (remainderBits (riceOf m) r ++ rest)) := by
  cases bits with
  | nil => simp [takeSymbol]
  | cons sign bits =>
    simp only [takeSymbol, getBit_cons]
    rcases hu : takeUnary 0 bits with _ | ⟨q, afterUnary⟩
    · simp only [reduceCtorEq, false_iff, not_exists, not_and]
      rintro sg q r - - h
      obtain ⟨-, rfl⟩ := List.cons.inj h
      exact absurd (takeUnary_eq_none_iff.1 hu false (by simp)) (by decide)
    · obtain ⟨n, hq, hbits⟩ := takeUnary_eq_some_iff.1 hu
      simp only
      have key : ∀ sg q' r, (sign :: bits = sg :: (List.replicate q' true ++ false ::
          (remainderBits (riceOf m) r ++ rest))) ↔
          (sign = sg ∧ q = q' ∧ afterUnary = remainderBits (riceOf m) r ++ rest) := by
        intro sg q' r
        constructor
        · intro h
          obtain ⟨rfl, htail⟩ := List.cons.inj h
          have := (takeUnary_eq_some_iff (q := 0)).2 ⟨q', (Nat.zero_add q').symm, htail⟩
          rw [hu] at this
          simpa using this
        · rintro ⟨rfl, rfl, rfl⟩; rw [hbits, hq, Nat.zero_add]
      rcases hr : takeRemainder (riceOf m) afterUnary with _ | ⟨r, rest'⟩
      · simp only [reduceCtorEq, false_iff, not_exists, not_and]
        rintro sg q' r hr' - h
        have := (takeRemainder_eq_some_iff hm).2 ⟨hr', ((key sg q' r).1 h).2.2⟩
        rw [hr] at this; cases this
      · obtain ⟨hrm, hafter⟩ := (takeRemainder_eq_some_iff hm).1 hr
        simp only [SymbolRead.value.injEq]
        constructor
        · rintro ⟨rfl, rfl⟩
          exact ⟨sign, q, r, hrm, rfl, (key _ _ _).2 ⟨rfl, rfl, hafter⟩⟩
        · rintro ⟨sg, q', r', hr', rfl, h⟩
          obtain ⟨rfl, rfl, hcode⟩ := (key _ _ _).1 h
          have := (takeRemainder_eq_some_iff hm).2 ⟨hr', hcode⟩
          rw [hr] at this
          obtain ⟨rfl, rfl⟩ := Prod.mk.inj (Option.some.inj this)
          exact ⟨rfl, rfl⟩

end Sys2Proof.Machine
end

