-- ==== Sys2Proof/Laws/Passes.lean ====
section
/-! SUPPORT. The two raster passes: for each, everything it can answer when it answers a next state (R172, R173), and
what a prediction depends on. -/

namespace Sys2Proof.Machine

/-! What a prediction and a residual depend on. -/

/-- A coordinate read depends on the geometry and on its own cell alone (R52). -/
theorem State.planeRead_congr {s t : State} {row col : Int} (hr : t.rows = s.rows) (hc : t.cols = s.cols)
    (h : 0 ≤ row → row < s.rows → 0 ≤ col → col < s.cols →
      t.cell (row * s.cols + col).toNat = s.cell (row * s.cols + col).toNat) :
    t.planeRead row col = s.planeRead row col := by
  unfold State.planeRead
  rw [hr, hc]
  split
  · rename_i hb; rw [h hb.1 hb.2.1 hb.2.2.1 hb.2.2.2]
  · rfl

/-- A prediction depends on the geometry and the cells alone. -/
theorem State.predict_congr {s t : State} (hr : t.rows = s.rows) (hc : t.cols = s.cols) (h : ∀ a, t.cell a = s.cell a)
    (row col : Nat) : t.predict row col = s.predict row col := by
  have hread : ∀ x y, t.planeRead x y = s.planeRead x y := fun x y =>
    State.planeRead_congr hr hc fun _ _ _ _ => h _
  simp only [State.predict, State.leftOf, State.topOf, State.topLeftOf, hread]

/-- A residual depends on the geometry and the cells alone (R171). -/
theorem State.residual_congr {s t : State} (hr : t.rows = s.rows) (hc : t.cols = s.cols)
    (h : ∀ a, t.cell a = s.cell a) (k : Nat) : t.residual k = s.residual k := by
  simp only [State.residual, State.predictAt, State.rowOf, State.colOf, hc, h, State.predict_congr hr hc h]

/-- The encode pass writes no cell, so a residual is the same before and after a position is done. -/
@[simp] theorem State.residual_encodedAt (s : State) (k i : Nat) : (s.encodedAt k).residual i = s.residual i :=
  State.residual_congr rfl rfl (fun _ => rfl) i

@[simp] theorem State.rice_encodedAt (s : State) (k : Nat) : (s.encodedAt k).rice = s.rice := rfl

@[simp] theorem State.rice_decodedAt (s : State) (k : Nat) (d : Int) (rest : List Bool) :
    (s.decodedAt k d rest).rice = s.rice := rfl

/-- The values a prediction computes lie in 0 to 510 (R162, R163). -/
theorem State.predictValues_range (s : State) (row col : Nat) : ∀ v ∈ s.predictValues row col, 0 ≤ v ∧ v ≤ 510 := by
  have ha := s.planeRead_range row ((col : Int) - 1)
  have hb := s.planeRead_range ((row : Int) - 1) col
  intro v hv
  unfold State.predictValues medianEdge State.leftOf State.topOf at hv
  generalize s.planeRead row ((col : Int) - 1) = a at *
  generalize s.planeRead ((row : Int) - 1) col = b at *
  dsimp only at hv
  split at hv
  · rw [List.mem_singleton] at hv
    split at hv
    · omega
    · split at hv <;> omega
  · rcases List.mem_pair.1 hv with rfl | rfl
    · omega
    · split
      · omega
      · split <;> omega

/-- The value of a reconstructed cell is its argument modulo 256 (R174). -/
theorem wrapSample_toNat (x : Int) : ((wrapSample x).toNat : Int) = x % 256 := by
  have := Int.emod_nonneg x (b := 256) (by decide)
  have := Int.emod_lt_of_pos x (b := 256) (by decide)
  simp [wrapSample, BitVec.toNat_ofNat]; omega

/-! The encode pass. -/

/-- If the encode pass answers, it has done some number `j` of positions: their symbols are appended in order, COUNT
says how many, and the code is OK when all were done, StreamFull when the next symbol did not fit (R172, R180, R222). -/
theorem encodePass_next {n k : Nat} {s t : State} (h : encodePass n k s = .next t) :
    ∃ j c, ((c = .ok ∧ j = n) ∨ (c = .streamFull ∧ j < n)) ∧
      t = State.complete { s with
        stream := s.stream ++ (List.range' k j).flatMap fun i => symbolBits s.rice (s.residual i)
        count := if j = 0 then s.count else k + j } c false := by
  induction n generalizing k s with
  | zero =>
    refine ⟨0, .ok, .inl ⟨rfl, rfl⟩, ?_⟩
    rw [encodePass, succeed_eq] at h
    injection h with h
    simp [← h]
  | succ n ih =>
    rw [encodePass] at h
    obtain ⟨-, h⟩ := withValues_next_iff.1 h
    split at h
    · obtain ⟨j, c, hc, rfl⟩ := ih h
      refine ⟨j + 1, c, hc.imp (fun ⟨a, b⟩ => ⟨a, by omega⟩) (fun ⟨a, b⟩ => ⟨a, by omega⟩), ?_⟩
      simp only [State.encodedAt_stream, State.encodedAt_count, State.rice_encodedAt, State.residual_encodedAt,
        List.range'_succ, List.flatMap_cons, List.append_assoc]
      have : (if j = 0 then k + 1 else k + 1 + j) = if j + 1 = 0 then s.count else k + (j + 1) := by
        rw [if_neg (Nat.succ_ne_zero j)]; split <;> omega
      rw [this]
      rfl
    · refine ⟨0, .streamFull, .inr ⟨rfl, by omega⟩, ?_⟩
      rw [raise_eq] at h
      injection h with h
      simp [← h]

/-- The encode pass keeps `SLEN ≤ STREAM_CAP` (R33, R222). -/
theorem encodePass_slen {n k : Nat} {s t : State} (h : encodePass n k s = .next t)
    (hs : ∀ cap ∈ s.params.streamCap, s.slen ≤ cap) : ∀ cap ∈ s.params.streamCap, t.slen ≤ cap := by
  induction n generalizing k s with
  | zero =>
    rw [encodePass, succeed_eq] at h
    injection h with h
    subst h; exact hs
  | succ n ih =>
    rw [encodePass] at h
    obtain ⟨-, h⟩ := withValues_next_iff.1 h
    split at h
    · rename_i hroom
      refine ih (s := s.encodedAt k) h fun cap hcap => ?_
      have := State.roomFor_iff.1 hroom cap hcap
      simp only [State.slen, symLen, State.encodedAt_stream, List.length_append, symbolBits, List.length_cons,
        List.length_replicate, remainderBits_length] at this ⊢
      omega
    · rw [raise_eq] at h
      injection h with h
      subst h; exact hs

/-- With VAL_BITS unbounded the encode pass answers a next state. -/
theorem encodePass_total {n k : Nat} {s : State} (hv : s.params.valBits = none) :
    ∃ t, encodePass n k s = .next t := by
  induction n generalizing k s with
  | zero => exact ⟨_, rfl⟩
  | succ n ih =>
    rw [encodePass, withValues_of_fit (valuesFit_default hv _)]
    split
    · exact ih (s := s.encodedAt k) hv
    · exact ⟨_, rfl⟩

/-- The encode pass stops by name only, for a value outside a finite domain (U6). -/
theorem encodePass_refused {n k : Nat} {s : State} {r : Refusal} (h : encodePass n k s = .refused r) :
    r = .valueOutsideDomain ∧ s.params.valBits ≠ none := by
  induction n generalizing k s with
  | zero => simp [encodePass] at h
  | succ n ih =>
    rw [encodePass] at h
    rcases withValues_refused h with h | h
    · exact h
    · split at h
      · exact ih (s := s.encodedAt k) h
      · simp at h

/-! The decode pass. -/

/-- If the decode pass answers, it has done some number `j` of positions: it changed only their cells, each now written,
the cursor and COUNT; the code is OK when all were done, IncompleteStream, with every bit consumed, when the stream
ended first (R173, R175, R218). -/
theorem decodePass_next {n k : Nat} {s t : State} (h : decodePass n k s = .next t) :
    ∃ j c x q p, ((c = .ok ∧ j = n ∧ x = false) ∨ (c = .incompleteStream ∧ j < n)) ∧
      t = State.complete { s with plane := q, rpos := p, count := if j = 0 then s.count else k + j } c x ∧
      (∀ a, a < k ∨ k + j ≤ a → Memory.read? q a = Memory.read? s.plane a) ∧
      (∀ a, k ≤ a → a < k + j → Memory.read? q a ≠ none) ∧
      (Memory.wf s.plane → Memory.wf q) ∧ (∀ d ∈ q, d.1 < k + n ∨ d ∈ s.plane) ∧
      (s.rpos ≤ s.slen → p ≤ s.slen ∧ (c = .incompleteStream → p = s.slen)) := by
  induction n generalizing k s with
  | zero =>
    refine ⟨0, .ok, false, s.plane, s.rpos, .inl ⟨rfl, rfl, rfl⟩, ?_, fun _ _ => rfl, fun a h1 h2 => by omega, id,
      fun d hd => .inr hd, fun h => ⟨h, by simp⟩⟩
    rw [decodePass, succeed_eq] at h
    injection h with h
    simp [← h]
  | succ n ih =>
    rw [decodePass] at h
    split at h
    · rename_i he
      have hnil := takeSymbol_endOfStream_iff.1 he
      refine ⟨0, .incompleteStream, false, s.plane, s.rpos, .inr ⟨rfl, by omega⟩, ?_, fun _ _ => rfl,
        fun a h1 h2 => by omega, id, fun d hd => .inr hd, fun h => ⟨h, fun _ => ?_⟩⟩
      · rw [raiseIncomplete_eq] at h
        injection h with h
        simp [← h]
      · have := congrArg List.length hnil
        rw [State.unread_length, List.length_nil] at this
        omega
    · refine ⟨0, .incompleteStream, true, s.plane, (s.consumeTo []).rpos, .inr ⟨rfl, by omega⟩, ?_, fun _ _ => rfl,
        fun a h1 h2 => by omega, id, fun d hd => .inr hd,
        fun h => ⟨State.consumeTo_rpos_le h [], fun _ => State.consumeTo_nil_rpos h⟩⟩
      rw [raiseIncomplete_eq] at h
      injection h with h
      rw [← h]
      rfl
    · rename_i d rest _
      obtain ⟨-, h⟩ := withValues_next_iff.1 h
      obtain ⟨j, c, x, q, p, hc, rfl, hout, hin, hwf, hmem, hpos⟩ := ih h
      refine ⟨j + 1, c, x, q, p, ?_, ?_, fun a ha => ?_, fun a h1 h2 => ?_, fun hw => hwf (Memory.write_wf hw _ _),
        fun e he => ?_, fun hle => ?_⟩
      · exact hc.imp (fun ⟨a, b, e⟩ => ⟨a, by omega, e⟩) (fun ⟨a, b⟩ => ⟨a, by omega⟩)
      · have : (if j = 0 then (s.decodedAt k d rest).count else k + 1 + j) =
            if j + 1 = 0 then s.count else k + (j + 1) := by
          rw [State.decodedAt_count, if_neg (Nat.succ_ne_zero j)]; split <;> omega
        rw [this]
        rfl
      · rw [hout a (by omega), State.decodedAt_plane, Memory.read?_write, if_neg (by omega)]
      · by_cases hk : a = k
        · rw [hout a (by omega), State.decodedAt_plane, Memory.read?_write, if_pos hk.symm]
          simp
        · exact hin a (by omega) (by omega)
      · rcases hmem e he with h | h
        · exact .inl (by omega)
        · rcases Memory.mem_write h with rfl | h
          · exact .inl (by simp)
          · exact .inr h
      · exact hpos (State.consumeTo_rpos_le hle rest)

/-- With VAL_BITS unbounded the decode pass answers a next state. -/
theorem decodePass_total {n k : Nat} {s : State} (hv : s.params.valBits = none) :
    ∃ t, decodePass n k s = .next t := by
  induction n generalizing k s with
  | zero => exact ⟨_, rfl⟩
  | succ n ih =>
    rw [decodePass]
    split
    · exact ⟨_, rfl⟩
    · exact ⟨_, rfl⟩
    · rw [withValues_of_fit (valuesFit_default hv _)]
      exact ih (s := s.decodedAt k _ _) hv

/-- The decode pass stops by name only, for a value outside a finite domain (U6). -/
theorem decodePass_refused {n k : Nat} {s : State} {r : Refusal} (h : decodePass n k s = .refused r) :
    r = .valueOutsideDomain ∧ s.params.valBits ≠ none := by
  induction n generalizing k s with
  | zero => simp [decodePass] at h
  | succ n ih =>
    rw [decodePass] at h
    split at h
    · simp at h
    · simp at h
    · rcases withValues_refused h with h | h
      · exact h
      · exact ih (s := s.decodedAt k _ _) h

end Sys2Proof.Machine
end

