-- ==== Sys2Proof/Laws/PerInstr.lean ====
section
/-! SUPPORT. What holds of every command's own word, one lemma per command (LAWS.json): its opcode stands in bits 31:24
and the must-be-zero bits of its format are 0 (R80, R81, R83). -/

namespace Sys2Proof.Laws

/-- A word's value from its opcode and immediate. -/
theorem commandWord_toNat {op imm : Nat} (hop : op < 2 ^ 8) (himm : imm < 2 ^ 24) :
    (commandWord op imm).toNat = op * 2 ^ 24 + imm := by
  rw [commandWord, BitVec.toNat_ofNat, Nat.mod_eq_of_lt (by omega)]

/-- The opcode field of a word is the opcode it was made of. -/
theorem field_opcode {op imm : Nat} (hop : op < 2 ^ 8) (himm : imm < 2 ^ 24) :
    field (commandWord op imm) 31 24 = op := by
  rw [field, commandWord_toNat hop himm]; omega

/-- A field of the immediate of a word is that field of the immediate. -/
theorem field_imm {op imm : Nat} (hop : op < 2 ^ 8) (himm : imm < 2 ^ 24) (hi lo : Nat) (h : hi < 24) (hl : lo ≤ hi) :
    field (commandWord op imm) hi lo = imm / 2 ^ lo % 2 ^ (hi + 1 - lo) := by
  rw [field, commandWord_toNat hop himm]
  obtain ⟨d, hd⟩ : ∃ d, lo + (hi + 1 - lo + d) = 24 := ⟨23 - hi, by omega⟩
  have h24 : (2 : Nat) ^ 24 = 2 ^ lo * (2 ^ (hi + 1 - lo) * 2 ^ d) := by
    rw [← Nat.pow_add, ← Nat.pow_add, hd]
  rw [h24, show op * (2 ^ lo * (2 ^ (hi + 1 - lo) * 2 ^ d)) + imm =
    imm + 2 ^ lo * (2 ^ (hi + 1 - lo) * (2 ^ d * op)) by ring, Nat.add_mul_div_left _ _ (Nat.two_pow_pos lo),
    Nat.add_mul_mod_self_left]

/-- The opcode of a command (R83). -/
def opcodeOf : Instr → Nat
  | .nop => 0x00
  | .clrerr => 0x01
  | .bsClear => 0x10
  | .bsRewind => 0x11
  | .bsWbit _ => 0x12
  | .bsWbits _ _ => 0x13
  | .bsRbit => 0x14
  | .bsRbits _ => 0x15
  | .bsFlush => 0x16
  | .bsTrunc _ => 0x17
  | .rcSetm _ => 0x20
  | .rcEnc _ => 0x21
  | .rcDec => 0x22
  | .prPred _ _ => 0x30
  | .plSetdim _ _ => 0x40
  | .plEnc => 0x41
  | .plDec => 0x42
  | .plSeek _ => 0x43
  | .plPut _ => 0x44
  | .plGet => 0x45

/-- The format of a command (R81, R83). -/
def formatOf : Instr → Format
  | .nop => .N
  | .clrerr => .N
  | .bsClear => .N
  | .bsRewind => .N
  | .bsWbit _ => .B
  | .bsWbits _ _ => .G
  | .bsRbit => .N
  | .bsRbits _ => .C
  | .bsFlush => .N
  | .bsTrunc _ => .U
  | .rcSetm _ => .U
  | .rcEnc _ => .S
  | .rcDec => .N
  | .prPred _ _ => .D
  | .plSetdim _ _ => .D
  | .plEnc => .N
  | .plDec => .N
  | .plSeek _ => .U
  | .plPut _ => .P
  | .plGet => .N

/-- The command's word has the command's opcode, and 0 in the must-be-zero bits of its format. -/
def OpcodeAndReserved.Statement (i : Instr) : Prop :=
  i.wf = true → field (encode i) 31 24 = opcodeOf i ∧ reservedZero (formatOf i) (encode i) = true

/-- Every opcode has eight bits. -/
theorem opcodeOf_lt (i : Instr) : opcodeOf i < 2 ^ 8 := by
  cases i <;> simp [opcodeOf]

/-- The statement for a word whose immediate has no reserved bit set. -/
theorem opcode_and_reserved_of {i : Instr} {imm : Nat} (he : encode i = commandWord (opcodeOf i) imm)
    (himm : imm < 2 ^ 24)
    (hr : reservedZero (formatOf i) (commandWord (opcodeOf i) imm) = true) : OpcodeAndReserved.Statement i :=
  fun _ => ⟨he ▸ field_opcode (opcodeOf_lt i) himm, he ▸ hr⟩

namespace OpcodeAndReserved

theorem nop : Statement .nop := opcode_and_reserved_of rfl (by decide) (by decide)

theorem clrerr : Statement .clrerr := opcode_and_reserved_of rfl (by decide) (by decide)

theorem bsClear : Statement .bsClear := opcode_and_reserved_of rfl (by decide) (by decide)

theorem bsRewind : Statement .bsRewind := opcode_and_reserved_of rfl (by decide) (by decide)

theorem bsWbit (bit : Bool) : Statement (.bsWbit bit) := by cases bit <;> exact fun _ => by decide

theorem bsWbits (n v : Nat) : Statement (.bsWbits n v) := fun h => by
  have h' := h
  simp only [Instr.wf, Bool.and_eq_true, decide_eq_true_eq] at h'
  exact opcode_and_reserved_of (i := .bsWbits n v) rfl (by omega) rfl h

theorem bsRbit : Statement .bsRbit := opcode_and_reserved_of rfl (by decide) (by decide)

theorem bsRbits (n : Nat) : Statement (.bsRbits n) := fun h => by
  have hn : n < 2 ^ 8 := by simpa [Instr.wf] using h
  refine opcode_and_reserved_of (i := .bsRbits n) rfl (by omega) ?_ h
  simp only [formatOf, opcodeOf, reservedZero, beq_iff_eq]
  rw [field_imm (by decide) (by omega) 15 0 (by decide) (by decide)]
  omega

theorem bsFlush : Statement .bsFlush := opcode_and_reserved_of rfl (by decide) (by decide)

theorem bsTrunc (n : Nat) : Statement (.bsTrunc n) := fun h =>
  opcode_and_reserved_of (i := .bsTrunc n) rfl (by simpa [Instr.wf] using h) rfl h

theorem rcSetm (m : Nat) : Statement (.rcSetm m) := fun h =>
  opcode_and_reserved_of (i := .rcSetm m) rfl (by simpa [Instr.wf] using h) rfl h

theorem rcEnc (value : Int) : Statement (.rcEnc value) := fun h =>
  opcode_and_reserved_of (i := .rcEnc value) rfl (by omega) rfl h

theorem rcDec : Statement .rcDec := opcode_and_reserved_of rfl (by decide) (by decide)

theorem prPred (row col : Nat) : Statement (.prPred row col) := fun h => by
  have h' := h
  simp only [Instr.wf, Bool.and_eq_true, decide_eq_true_eq] at h'
  exact opcode_and_reserved_of (i := .prPred row col) rfl (by omega) rfl h

theorem plSetdim (rows cols : Nat) : Statement (.plSetdim rows cols) := fun h => by
  have h' := h
  simp only [Instr.wf, Bool.and_eq_true, decide_eq_true_eq] at h'
  exact opcode_and_reserved_of (i := .plSetdim rows cols) rfl (by omega) rfl h

theorem plEnc : Statement .plEnc := opcode_and_reserved_of rfl (by decide) (by decide)

theorem plDec : Statement .plDec := opcode_and_reserved_of rfl (by decide) (by decide)

theorem plSeek (addr : Nat) : Statement (.plSeek addr) := fun h =>
  opcode_and_reserved_of (i := .plSeek addr) rfl (by simpa [Instr.wf] using h) rfl h

theorem plPut (sample : Sample) : Statement (.plPut sample) := fun h => by
  have hs := sample.isLt
  refine opcode_and_reserved_of (i := .plPut sample) rfl (by omega) ?_ h
  simp only [formatOf, opcodeOf, reservedZero, beq_iff_eq]
  rw [field_imm (by decide) (by omega) 23 8 (by decide) (by decide)]
  omega

theorem plGet : Statement .plGet := opcode_and_reserved_of rfl (by decide) (by decide)

end OpcodeAndReserved

end Sys2Proof.Laws
end

