-- ==== Sys2Proof/Machine/Assembler.lean ====
section
/-! DEFINITION. The assembler syntax of R88 and the pseudo-instructions of R89: from one line, as its list of
characters, to the commands it stands for. It is no part of the CORE ("there is no program memory"): the host writes
its command words in it. -/

namespace Sys2Proof.Machine

/-- `BS.WBYTE x` is `BS.WBITS 8, x` (R89). -/
def expandWbyte (x : Nat) : List Instr :=
  [.bsWbits 8 x]

/-- `BS.RBYTE` is `BS.RBITS 8` (R89). -/
def expandRbyte : List Instr :=
  [.bsRbits 8]

/-- `PL.LOAD a, s0, ..., sk` is `PL.SEEK a` followed by `PL.PUT s0`, ..., `PL.PUT sk` (R89). -/
def expandLoad (a : Nat) (samples : List Sample) : List Instr :=
  .plSeek a :: samples.map .plPut

/-- `PL.DUMP a, count` is `PL.SEEK a` followed by `count` times `PL.GET` (R89). -/
def expandDump (a count : Nat) : List Instr :=
  .plSeek a :: List.replicate count .plGet

/-- Blanks between the parts of a line (log 11). -/
def isBlank (c : Char) : Bool :=
  c == ' ' || c == '\t'

/-- The text without the blanks before and after it. -/
def trimBlanks (cs : List Char) : List Char :=
  ((cs.dropWhile isBlank).reverse.dropWhile isBlank).reverse

/-- "A `#` starts a comment" (R88). -/
def withoutComment (cs : List Char) : List Char :=
  cs.takeWhile fun c => c != '#'

/-- The parts between commas (R88). -/
def splitCommas (cs : List Char) : List (List Char) :=
  match cs with
  | [] => [[]]
  | c :: rest =>
    if c = ',' then [] :: splitCommas rest
    else
      match splitCommas rest with
      | [] => [[c]]
      | w :: ws => (c :: w) :: ws

/-- The value of a decimal or hexadecimal digit; both cases of the letters are taken (log 11). -/
def digitValue (c : Char) : Option Nat :=
  if '0' ≤ c ∧ c ≤ '9' then some (c.toNat - '0'.toNat)
  else if 'a' ≤ c ∧ c ≤ 'f' then some (c.toNat - 'a'.toNat + 10)
  else if 'A' ≤ c ∧ c ≤ 'F' then some (c.toNat - 'A'.toNat + 10)
  else none

/-- Digits in a base, after a number read so far. -/
def digitsFrom (base acc : Nat) (cs : List Char) : Option Nat :=
  match cs with
  | [] => some acc
  | c :: rest =>
    match digitValue c with
    | none => none
    | some d => if d < base then digitsFrom base (acc * base + d) rest else none

/-- A number "in decimal, or hexadecimal with `0x`" (R88). -/
def naturalOf (cs : List Char) : Option Nat :=
  match cs with
  | [] => none
  | '0' :: 'x' :: ds => if ds = [] then none else digitsFrom 16 0 ds
  | ds => digitsFrom 10 0 ds

/-- A number, or "a negative operand of RC.ENC is written with a minus sign" (R88). DESIGN CHOICE: the sign is read on every
operand, before a decimal or a hexadecimal number, so that `-0` is 0 wherever it stands; on every operand but RC.ENC's
the range check then refuses what is below 0 (log 11). -/
def numberOf (cs : List Char) : Option Int :=
  match cs with
  | '-' :: ds => (naturalOf ds).map fun n => -(n : Int)
  | ds => (naturalOf ds).map fun n => (n : Int)

/-- The numbers of an operand list; no operand at all is the empty text. -/
def operandNumbers (cs : List Char) : Option (List Int) :=
  if trimBlanks cs = [] then some [] else (splitCommas cs).mapM fun w => numberOf (trimBlanks w)

/-- An operand that fits `n` unsigned bits. -/
def unsignedOperand (n : Nat) (v : Int) : Option Nat :=
  if 0 ≤ v ∧ v < 2 ^ n then some v.toNat else none

/-- A sample operand, 0 to 255. -/
def sampleOperand (v : Int) : Option Sample :=
  (unsignedOperand 8 v).map (BitVec.ofNat 8)

/-- The command of one unsigned operand of `n` bits. -/
def unary (n : Nat) (v : Int) (mk : Nat → Instr) : Option (List Instr) :=
  (unsignedOperand n v).map fun x => [mk x]

/-- The command of two unsigned operands of `n` and `k` bits. -/
def binary (n : Nat) (v : Int) (k : Nat) (w : Int) (mk : Nat → Nat → Instr) : Option (List Instr) :=
  match unsignedOperand n v, unsignedOperand k w with
  | some x, some y => some [mk x y]
  | _, _ => none

/-- The commands of a mnemonic of R83 or a pseudo-instruction of R89 with its operands in the table's order; `none`
when the number of operands or a range is wrong. -/
def commandsOf (mnemonic : String) (ops : List Int) : Option (List Instr) :=
  match ops with
  | [] =>
    match mnemonic with
    | "NOP" => some [.nop]
    | "CLRERR" => some [.clrerr]
    | "BS.CLEAR" => some [.bsClear]
    | "BS.REWIND" => some [.bsRewind]
    | "BS.RBIT" => some [.bsRbit]
    | "BS.FLUSH" => some [.bsFlush]
    | "RC.DEC" => some [.rcDec]
    | "PL.ENC" => some [.plEnc]
    | "PL.DEC" => some [.plDec]
    | "PL.GET" => some [.plGet]
    | "BS.RBYTE" => some expandRbyte
    | _ => none
  | v :: rest =>
    match mnemonic, rest with
    | "BS.WBIT", [] => unary 1 v fun x => .bsWbit (x == 1)
    | "BS.WBITS", [w] => binary 8 v 16 w .bsWbits
    | "BS.RBITS", [] => unary 8 v .bsRbits
    | "BS.TRUNC", [] => unary 24 v .bsTrunc
    | "RC.SETM", [] => unary 24 v .rcSetm
    | "RC.ENC", [] => if (Instr.rcEnc v).wf then some [.rcEnc v] else none
    | "PR.PRED", [w] => binary 12 v 12 w .prPred
    | "PL.SETDIM", [w] => binary 12 v 12 w .plSetdim
    | "PL.SEEK", [] => unary 24 v .plSeek
    | "PL.PUT", [] => (sampleOperand v).map fun x => [.plPut x]
    | "BS.WBYTE", [] => (unsignedOperand 8 v).map expandWbyte
    | "PL.LOAD", s :: ss =>
      match unsignedOperand 24 v, (s :: ss).mapM sampleOperand with
      | some a, some samples => some (expandLoad a samples)
      | _, _ => none
    | "PL.DUMP", [w] =>
      match unsignedOperand 24 v with
      | some a => if 0 ≤ w then some (expandDump a w.toNat) else none
      | none => none
    | _, _ => none

/-- One line: "the mnemonic ... in upper case, then its operands ... separated by commas"; a line with nothing but
blanks and a comment gives no command (R88). -/
def assembleLine (line : List Char) : Option (List Instr) :=
  let text := trimBlanks (withoutComment line)
  if text = [] then some []
  else
    match operandNumbers (text.dropWhile fun c => !isBlank c) with
    | none => none
    | some ops => commandsOf (String.ofList (text.takeWhile fun c => !isBlank c)) ops

/-- The command words of one line. -/
def wordsOfLine (line : List Char) : Option (List Word) :=
  (assembleLine line).map fun is => is.map encode

end Sys2Proof.Machine
end

