-- ==== Sys2Proof/Tests/Slice0.lean ====
section
/-! SUPPORT. Tests of one step each, with results taken from 95_test_vectors.md or worked out from a rule by hand, and
for every statement with hypotheses a concrete case that meets them. -/

namespace Sys2Proof.Machine.Tests

/-! Helpers. -/

/-- Bits in stream order. -/
def bits (xs : List Nat) : List Bool := xs.map fun x => x == 1

/-- The state after reset, then RC.SETM m (m = 0: none), with these bits in the stream and the cursor at its start. -/
def coder (m : Nat) (xs : List Nat) : State :=
  { State.reset with m := m, b := clog2 m, u := if m = 0 then 0 else 2 ^ clog2 m - m, stream := bits xs }

/-- The same state with a plane of written cells. -/
def withPlane (rows cols : Nat) (cells : List Nat) (s : State) : State :=
  { s with rows := rows, cols := cols, plane := cells.zipIdx.map fun c => (c.2, BitVec.ofNat 8 c.1) }

/-- A finite STREAM_CAP. -/
def capped (cap : Nat) (s : State) : State :=
  { s with params := { s.params with streamCap := some cap } }

/-- A small PLANE_CAP. -/
def small (cap : Nat) (s : State) : State :=
  { s with params := { s.params with planeCap := cap } }

/-- The state after one step in which the host presents `w`. -/
def after (w : Word) (s : State) : Option State :=
  match step (s.withFetchWord 32 w.toNat) with
  | .next t => some t
  | _ => none

/-- The step stops with this refusal. -/
def refusedAs (r : Refusal) (w : Word) (s : State) : Bool :=
  match step (s.withFetchWord 32 w.toNat) with
  | .refused x => x == r
  | _ => false

/-! WellFormed refuses each ill-formed operand (R81, R82), and takes its neighbour. -/

theorem test_wf_wbits_n : (Instr.bsWbits 256 0).wf = false ∧ (Instr.bsWbits 255 0).wf = true := by decide
theorem test_wf_wbits_v : (Instr.bsWbits 0 65536).wf = false ∧ (Instr.bsWbits 0 65535).wf = true := by decide
theorem test_wf_rbits : (Instr.bsRbits 256).wf = false ∧ (Instr.bsRbits 255).wf = true := by decide
theorem test_wf_trunc : (Instr.bsTrunc 16777216).wf = false ∧ (Instr.bsTrunc 16777215).wf = true := by decide
theorem test_wf_setm : (Instr.rcSetm 16777216).wf = false ∧ (Instr.rcSetm 16777215).wf = true := by decide
theorem test_wf_enc_high : (Instr.rcEnc 8388608).wf = false ∧ (Instr.rcEnc 8388607).wf = true := by decide
theorem test_wf_enc_low : (Instr.rcEnc (-8388609)).wf = false ∧ (Instr.rcEnc (-8388608)).wf = true := by decide
theorem test_wf_pred_row : (Instr.prPred 4096 0).wf = false ∧ (Instr.prPred 4095 0).wf = true := by decide
theorem test_wf_pred_col : (Instr.prPred 0 4096).wf = false ∧ (Instr.prPred 0 4095).wf = true := by decide
theorem test_wf_setdim_rows : (Instr.plSetdim 4096 0).wf = false ∧ (Instr.plSetdim 4095 0).wf = true := by decide
theorem test_wf_setdim_cols : (Instr.plSetdim 0 4096).wf = false ∧ (Instr.plSetdim 0 4095).wf = true := by decide
theorem test_wf_seek : (Instr.plSeek 16777216).wf = false ∧ (Instr.plSeek 16777215).wf = true := by decide

/-! Decoding, from words written out from R80 to R83, one or more for every command (V1). -/

theorem test_decode_control : decode 0x00000000#32 = .command .nop ∧ decode 0x01000000#32 = .command .clrerr := by
  decide
theorem test_decode_clear_rewind :
    decode 0x10000000#32 = .command .bsClear ∧ decode 0x11000000#32 = .command .bsRewind := by decide
theorem test_decode_wbit :
    decode 0x12000001#32 = .command (.bsWbit true) ∧ decode 0x12000000#32 = .command (.bsWbit false) := by decide
theorem test_decode_wbits :
    decode 0x13030005#32 = .command (.bsWbits 3 5) ∧ decode 0x1310ABCD#32 = .command (.bsWbits 16 0xABCD) ∧
      decode 0x13110000#32 = .command (.bsWbits 17 0) := by decide
theorem test_decode_rbit_rbits :
    decode 0x14000000#32 = .command .bsRbit ∧ decode 0x15080000#32 = .command (.bsRbits 8) ∧
      decode 0x15110000#32 = .command (.bsRbits 17) := by decide
theorem test_decode_flush_trunc :
    decode 0x16000000#32 = .command .bsFlush ∧ decode 0x17000018#32 = .command (.bsTrunc 24) := by decide
theorem test_decode_setm :
    decode 0x20000005#32 = .command (.rcSetm 5) ∧ decode 0x20FFFFFF#32 = .command (.rcSetm 16777215) := by decide
theorem test_decode_enc :
    decode 0x21000003#32 = .command (.rcEnc 3) ∧ decode 0x21FFFFF3#32 = .command (.rcEnc (-13)) ∧
      decode 0x217FFFFF#32 = .command (.rcEnc 8388607) ∧ decode 0x21800000#32 = .command (.rcEnc (-8388608)) := by
  decide
theorem test_decode_dec : decode 0x22000000#32 = .command .rcDec := by decide
theorem test_decode_pred :
    decode 0x30001002#32 = .command (.prPred 1 2) ∧ decode 0x30FFFFFF#32 = .command (.prPred 4095 4095) := by decide
theorem test_decode_setdim :
    decode 0x40002003#32 = .command (.plSetdim 2 3) ∧ decode 0x40000005#32 = .command (.plSetdim 0 5) := by decide
theorem test_decode_plane_passes :
    decode 0x41000000#32 = .command .plEnc ∧ decode 0x42000000#32 = .command .plDec := by decide
theorem test_decode_plane_cells :
    decode 0x43000000#32 = .command (.plSeek 0) ∧ decode 0x440000FF#32 = .command (.plPut 255) ∧
      decode 0x45000000#32 = .command .plGet := by decide

/-- Undefined opcodes (V1). -/
theorem test_decode_undefined :
    decode 0x7F000000#32 = .illegal .undefinedOpcode ∧ decode 0x02000000#32 = .illegal .undefinedOpcode ∧
      decode 0x18000000#32 = .illegal .undefinedOpcode ∧ decode 0x23000000#32 = .illegal .undefinedOpcode ∧
      decode 0x31000000#32 = .illegal .undefinedOpcode ∧ decode 0x46000000#32 = .illegal .undefinedOpcode ∧
      decode 0xFFFFFFFF#32 = .illegal .undefinedOpcode := by decide

/-- Reserved bits, one or more words for each format that has them (V1). -/
theorem test_decode_reserved :
    decode 0x10000001#32 = .illegal .reservedBits ∧ decode 0x00000001#32 = .illegal .reservedBits ∧
      decode 0x22800000#32 = .illegal .reservedBits ∧ decode 0x12000002#32 = .illegal .reservedBits ∧
      decode 0x15080001#32 = .illegal .reservedBits ∧ decode 0x44000100#32 = .illegal .reservedBits := by decide

/-- The encoder gives the words V1 writes beside the commands. -/
theorem test_encode :
    encode (.bsWbits 16 0xABCD) = 0x1310ABCD#32 ∧ encode (.rcEnc (-13)) = 0x21FFFFF3#32 ∧
      encode (.prPred 1 2) = 0x30001002#32 ∧ encode (.plPut 255) = 0x440000FF#32 ∧
      encode (.bsTrunc 24) = 0x17000018#32 ∧ encode (.rcEnc (-8388608)) = 0x21800000#32 := by decide

/-- The host's word is the decoder's; an illegal word gives nothing. -/
theorem test_decodeTableWord :
    decodeTableWord 32 0x13030005 = some (.bsWbits 3 5) ∧ decodeTableWord 32 0x12000002 = none := by decide

/-! The register port. -/

/-- STATUS 0x00000412: IncompleteStream, MIDSYM, the sticky bit of code 2 (P3). -/
theorem test_status_word :
    statusWord { State.reset with last := .incompleteStream, midsym := true, errs := 4#8 } = 0x412#32 := by decide

/-- The bytes of V2's stream: D6 AB CD. -/
theorem test_byteView :
    let s := coder 0 [1,1,0,1,0,1,1,0, 1,0,1,0,1,0,1,1, 1,1,0,0,1,1,0,1, 1]
    byteView s 0 = 0xD6 ∧ byteView s 1 = 0xAB ∧ byteView s 2 = 0xCD ∧ byteView s 3 = 0x80 ∧ byteCount s = 4 := by decide

/-! The assembler (R88, R89). -/

theorem test_assemble_negative :
    assembleLine ("RC.ENC -13   # a comment".toList) = some [.rcEnc (-13)] := by decide +kernel
theorem test_assemble_hexadecimal :
    assembleLine ("BS.WBITS 16, 0xABCD".toList) = some [.bsWbits 16 0xABCD] := by decide +kernel
theorem test_assemble_load :
    wordsOfLine ("PL.LOAD 2, 9, 8".toList) = some [0x43000002#32, 0x44000009#32, 0x44000008#32] := by decide +kernel
theorem test_assemble_dump :
    assembleLine ("PL.DUMP 2, 2".toList) = some [.plSeek 2, .plGet, .plGet] := by decide +kernel
theorem test_assemble_bytes :
    assembleLine ("BS.WBYTE 255".toList) = some [.bsWbits 8 255] ∧
      assembleLine ("BS.RBYTE".toList) = some [.bsRbits 8] := by decide +kernel
/-- A minus sign is read on every operand (log 11). -/
theorem test_assemble_minus :
    assembleLine ("RC.SETM -0".toList) = some [.rcSetm 0] ∧ assembleLine ("PL.PUT -1".toList) = none := by
  decide +kernel
theorem test_assemble_out_of_range : assembleLine ("RC.SETM 16777216".toList) = none := by decide +kernel

/-! The control family. -/

/-- NOP keeps the sticky bits and clears MIDSYM (R190, V6). -/
theorem test_nop :
    (after 0x00000000#32 { State.reset with last := .endOfStream, errs := 0x32#8 }).map statusWord =
      some 0x3200#32 := by decide

/-- CLRERR (V6). -/
theorem test_clrerr :
    (after 0x01000000#32 { State.reset with last := .ok, errs := 0x32#8 }).map statusWord = some 0#32 := by decide

/-- An illegal word: code 5 and its sticky bit, the other sticky bits kept (V6). -/
theorem test_illegal_word :
    (after 0x7F000000#32 { State.reset with errs := 0x02#8 }).map statusWord = some 0x2205#32 := by decide

/-! The bit-stream family (V2). -/

theorem test_clear :
    (after 0x10000000#32 { coder 5 [1, 0, 1] with rpos := 2 }).map (fun t => (t.stream, t.rpos, t.m)) =
      some ([], 0, 5) := by decide
theorem test_rewind :
    (after 0x11000000#32 { coder 0 [1, 0, 1] with rpos := 2 }).map (fun t => (t.stream, t.rpos)) =
      some (bits [1, 0, 1], 0) := by decide
theorem test_wbit :
    (after 0x12000001#32 (coder 0 [0])).map (fun t => (t.stream, t.rpos)) = some (bits [0, 1], 0) := by decide
theorem test_wbit_full :
    (after 0x12000001#32 (capped 8 (coder 0 [0, 0, 0, 0, 0, 0, 0, 0]))).map (fun t => (t.slen, statusWord t)) =
      some (8, 0x4006#32) := by decide

/-- The low four bits of 0xFFF6, most significant first. -/
theorem test_wbits :
    (after 0x1304FFF6#32 (coder 0 [1, 1, 0, 1])).map State.stream = some (bits [1, 1, 0, 1, 0, 1, 1, 0]) := by decide
theorem test_wbits_17 :
    (after 0x13110000#32 (coder 0 [1])).map (fun t => (t.stream, statusWord t)) = some ([true], 0x2005#32) := by decide
theorem test_rbit :
    (after 0x14000000#32 (coder 0 [1, 0])).map (fun t => (t.result, t.rpos)) = some (1, 1) := by decide
theorem test_rbit_at_end :
    (after 0x14000000#32 { coder 0 [1] with rpos := 1, result := 9 }).map (fun t => (t.result, t.rpos, statusWord t)) =
      some (9, 1, 0x1004#32) := by decide

/-- BS.RBITS 3 at the second bit of V2's stream gives 5. -/
theorem test_rbits :
    (after 0x15030000#32 { coder 0 [1, 1, 0, 1, 0] with rpos := 1 }).map (fun t => (t.result, t.rpos)) =
      some (5, 4) := by decide

/-- A group cut short: its bits are consumed and discarded, RESULT is kept (R59, V2). -/
theorem test_rbits_cut :
    (after 0x15020000#32 { coder 0 [1, 1, 0] with rpos := 2, result := 214 }).map
      (fun t => (t.result, t.rpos, statusWord t)) = some (214, 3, 0x1004#32) := by decide

/-- "0011011101100000", bytes 37 60 (V2). -/
theorem test_flush :
    (after 0x16000000#32 (coder 5 [0, 0, 1, 1, 0, 1, 1, 1, 0, 1, 1, 0])).map
      (fun t => (t.slen, byteView t 0, byteView t 1)) = some (16, 0x37, 0x60) := by decide
theorem test_trunc :
    (after 0x17000002#32 { coder 0 [1, 0, 1] with rpos := 3 }).map (fun t => (t.stream, t.rpos)) =
      some (bits [1, 0], 2) := by decide
theorem test_trunc_beyond :
    (after 0x17000004#32 { coder 0 [1, 0, 1] with rpos := 3 }).map (fun t => (t.slen, t.rpos, statusWord t)) =
      some (3, 3, 0x2005#32) := by decide

/-! The Golomb-Rice coder family (V3). -/

theorem test_setm :
    (after 0x20000009#32 State.reset).map (fun t => (t.m, t.b, t.u)) = some (9, 4, 7) ∧
      (after 0x200003E8#32 State.reset).map (fun t => (t.m, t.b, t.u)) = some (1000, 10, 24) ∧
      (after 0x20FFFFFF#32 State.reset).map (fun t => (t.m, t.b, t.u)) = some (16777215, 24, 1) := by decide +kernel
theorem test_setm_zero :
    (after 0x20000000#32 (coder 5 [])).map (fun t => (t.m, t.b, t.u, statusWord t)) = some (5, 3, 3, 0x201#32) := by
  decide

/-- -13 with m = 5 is 1 110 110. -/
theorem test_enc :
    (after 0x21FFFFF3#32 (coder 5 [0])).map State.stream = some (bits [0, 1, 1, 1, 0, 1, 1, 0]) := by decide

/-- 8388607 with m = 16777215 is 0 0 and a one with 23 zeros. -/
theorem test_enc_wide :
    (after 0x217FFFFF#32 (coder 16777215 [])).map State.stream =
      some (bits ([0, 0, 1] ++ List.replicate 23 0)) := by decide +kernel

/-- The symbols of V3's table for m = 1, 2, 3 and 64. -/
theorem test_symbols :
    symbolBits (riceOf 1) 3 = bits [0, 1, 1, 1, 0] ∧ symbolBits (riceOf 2) (-5) = bits [1, 1, 1, 0, 1] ∧
      symbolBits (riceOf 3) 7 = bits [0, 1, 1, 0, 1, 0] ∧ symbolBits (riceOf 3) (-4) = bits [1, 1, 0, 1, 0] ∧
      symbolBits (riceOf 64) (-200) = bits [1, 1, 1, 1, 0, 0, 0, 1, 0, 0, 0] := by decide

/-- The fifth bit is not read after a short code. -/
theorem test_dec_short :
    (after 0x22000000#32 (coder 5 [0, 0, 0, 1, 1])).map (fun t => (t.result, t.rpos)) = some (1, 4) := by decide

/-- `x = 3 ≥ u` and the extra bit missing: every bit consumed, MIDSYM set, RESULT kept. -/
theorem test_dec_cut :
    (after 0x22000000#32 { coder 5 [0, 0, 1, 1] with result := 7 }).map
      (fun t => (t.result, t.rpos, statusWord t)) = some (7, 4, 0x412#32) := by decide

/-! The predictor family (V4). -/

/-- The plane of V4. -/
def plane3 : State := withPlane 3 3 [10, 20, 30, 40, 50, 60, 70, 80, 90] State.reset

theorem test_pred_inside : (after 0x30001001#32 plane3).map State.result = some 40 := by decide
theorem test_pred_outside :
    (after 0x30003001#32 plane3).map State.result = some 10 ∧
      (after 0x30001003#32 plane3).map State.result = some 30 ∧
      (after 0x30003003#32 plane3).map State.result = some 0 := by decide

/-- The rule on V4's triples, one or more for each branch and each order of A and B. -/
theorem test_medianEdge :
    medianEdge 10 20 30 = 10 ∧ medianEdge 20 10 25 = 10 ∧ medianEdge 10 20 5 = 20 ∧ medianEdge 20 10 0 = 20 ∧
      medianEdge 10 20 15 = 15 ∧ medianEdge 200 100 150 = 150 ∧ medianEdge 99 102 100 = 101 ∧
      medianEdge 7 7 7 = 7 := by decide

/-! The plane codec family (V5, V7, P2 to P4). -/

theorem test_setdim : (after 0x40008008#32 (small 64 State.reset)).map (fun t => (t.rows, t.cols)) = some (8, 8) := by
  decide
theorem test_setdim_too_large :
    (after 0x40008009#32 (small 64 { State.reset with rows := 8, cols := 8 })).map
      (fun t => (t.rows, t.cols, statusWord t)) = some (8, 8, 0x803#32) := by decide

/-- P4: residuals 255 and -255 are coded as such, 67 bits each. -/
theorem test_plEnc :
    (after 0x41000000#32 (withPlane 1 2 [255, 0] (coder 4 []))).map (fun t => (t.stream, t.count)) =
      some (bits ([0] ++ List.replicate 63 1 ++ [0, 1, 1] ++ [1] ++ List.replicate 63 1 ++ [0, 1, 1]), 2) := by
  decide +kernel

/-- V7: with STREAM_CAP = 16 the third symbol does not fit: COUNT = 2, SLEN = 13. -/
theorem test_plEnc_full :
    (after 0x41000000#32 (capped 16 (withPlane 1 3 [20, 20, 40] (coder 4 [])))).map
      (fun t => (t.stream, t.count, statusWord t)) =
      some (bits [0, 1, 1, 1, 1, 1, 0, 0, 0, 0, 0, 0, 0], 2, 0x4006#32) := by decide +kernel

/-- S7: the stream of the plane 2, 0, 3 with m = 1, over a plane that held something else. -/
theorem test_plDec :
    (after 0x42000000#32 (withPlane 1 3 [9, 9, 9] (coder 1 [0, 1, 1, 0, 1, 1, 1, 0, 0, 1, 1, 1, 0]))).map
      (fun t => (t.plane, t.count, t.rpos, t.last)) =
      some ([(0, 2#8), (1, 0#8), (2, 3#8)], 3, 13, .ok) := by decide +kernel

/-- The same stream cut inside its second symbol: one sample, the others 0, and the cell beyond the plane kept. -/
theorem test_plDec_cut :
    (after 0x42000000#32 { withPlane 1 4 [9, 9, 9, 9] (coder 1 [0, 1, 1, 0, 1, 1]) with cols := 3 }).map
      (fun t => (t.plane, t.count, t.rpos, statusWord t)) =
      some ([(0, 2#8), (1, 0#8), (2, 0#8), (3, 9#8)], 1, 6, 0x412#32) := by decide +kernel
theorem test_seek : (after 0x43000002#32 State.reset).map State.paddr = some 2 := by decide
theorem test_put :
    (after 0x44000009#32 { State.reset with paddr := 2 }).map (fun t => (t.plane, t.paddr)) = some ([(2, 9#8)], 3) := by
  decide
theorem test_put_beyond :
    (after 0x44000008#32 (small 64 { State.reset with paddr := 64 })).map
      (fun t => (t.plane, t.paddr, statusWord t)) = some ([], 64, 0x2005#32) := by decide
theorem test_get :
    (after 0x45000000#32 { plane3 with paddr := 2 }).map (fun t => (t.result, t.paddr)) = some (30, 3) := by decide
theorem test_get_beyond :
    (after 0x45000000#32 (small 64 { State.reset with paddr := 64, result := 5 })).map
      (fun t => (t.result, t.paddr, statusWord t)) = some (5, 64, 0x2005#32) := by decide

/-! The value domain and the order of the checks. -/

/-- With VAL_BITS = 4 the value 8 is outside the domain and -8 is in it (U6). -/
theorem test_value_domain :
    refusedAs .valueOutsideDomain 0x21000008#32 { coder 16 [] with params := { valBits := some 4 } } = true ∧
      fitsDomain { valBits := some 4 } (-8) = true ∧ fitsDomain { valBits := some 4 } 8 = false := by decide

/-- R223: with M not set, RC.DEC of an empty stream is InvalidParameter, not EndOfStream (V6). -/
theorem test_priority : (after 0x22000000#32 State.reset).map statusWord = some 0x201#32 := by decide

/-! For every statement with hypotheses, a concrete case that meets them together; one for each clause, at a boundary of
its range. A fact `exec … = .next t` is given for the `t` the command's rule states. -/

/-- The host presents this word. -/
def presenting (w : Word) (s : State) : State :=
  { s with host := [.command w] }

/-- A finite VAL_BITS. -/
def narrow (n : Nat) (s : State) : State :=
  { s with params := { s.params with valBits := some n } }

theorem witness_DecodeOfEncode :
    (Instr.rcEnc (-8388608)).wf = true ∧ (Instr.plSetdim 4095 4095).wf = true := by decide
theorem witness_EncodeOfDecode : decode 0x20FFFFFF#32 = .command (.rcSetm 16777215) := by decide
theorem witness_DecodeAcceptsExactlyTheTable :
    0x1310ABCD#32 &&& 0xFF000000#32 = 0x13000000#32 ∧ (0xFF000000#32, 0x13000000#32) ∈ opcodeTable := by decide
theorem witness_NothingExecutesByItself : plane3.host = [] := rfl
theorem witness_HostResetLeavesResetState :
    ({ plane3 with host := [.reset, .command 0x20000005#32] } : State).host = .reset :: [.command 0x20000005#32] := rfl
theorem witness_StepRunsThePresentedCommand :
    (presenting 0x20000005#32 plane3).host = .command 0x20000005#32 :: [] ∧
      decode 0x20000005#32 = .command (.rcSetm 5) := by decide
theorem witness_IllegalWordsOnlySetStatus :
    (presenting 0x12000002#32 plane3).host = .command 0x12000002#32 :: [] ∧
      ∀ row ∈ opcodeTable, 0x12000002#32 &&& row.1 ≠ row.2 := ⟨rfl, by simp [opcodeTable]⟩

/-- A state with a parameter, a plane and a stream in use: the invariant holds. -/
def busy : State := { withPlane 2 3 [1, 2, 3, 4, 5, 6] (coder 5 [1, 0, 1]) with rpos := 3, paddr := 6, count := 6 }

theorem busy_inv : busy.Inv where
  params := by simp [ParamsLegal, busy, withPlane, coder, State.reset, Config.planeCapMax]
  parameter := by simp [ParameterInv, busy, withPlane, coder, State.reset, Config.mMax, State.rice, riceOf]
  geometry := by simp [GeometryInv, busy, withPlane, coder, State.reset, Config.dimMax, State.positions]
  plane := by simp [PlaneInv, Memory.wf, busy, withPlane, coder, State.reset, List.zipIdx]
  stream := by simp [StreamInv, busy, withPlane, coder, State.reset, bits, State.slen]
  status := by simp [StatusInv, busy, withPlane, coder, State.reset]
  result := rfl

theorem witness_InvariantKeptByEveryStep :
    (presenting 0x00000000#32 busy).Inv ∧
      step (presenting 0x00000000#32 busy) = .next { busy with last := .ok, midsym := false } :=
  ⟨⟨busy_inv.params, busy_inv.parameter, busy_inv.geometry, busy_inv.plane, busy_inv.stream, busy_inv.status,
    busy_inv.result⟩, rfl⟩
theorem witness_EveryStepAnswersInTheDefaultDomain : DefaultDomain busy := rfl
theorem witness_StopsOnlyOutsideTheValueDomain :
    exec (.rcEnc 8) (narrow 4 (coder 5 [])) = .refused .valueOutsideDomain := rfl
theorem witness_CompletionWritesStatus :
    exec .rcDec (coder 5 [1]) = .next { coder 5 [1] with
      rpos := 1, last := .incompleteStream, midsym := true, errs := 0x04#8 } := rfl
theorem witness_CodesEachCommandCanCompleteWith :
    busy.Inv ∧ exec .bsRbit busy = .next { busy with last := .endOfStream, midsym := false, errs := 0x10#8 } :=
  ⟨busy_inv, rfl⟩
theorem witness_RefusedCommandsHaveNoEffect :
    exec .rcDec State.reset = .next { State.reset with last := .invalidParameter, errs := 0x02#8 } ∧
      exec (.plSetdim 8 9) (small 64 State.reset) =
        .next { small 64 State.reset with last := .geometryMismatch, errs := 0x08#8 } ∧
      exec (.bsTrunc 1) State.reset = .next { State.reset with last := .illegalCommand, errs := 0x20#8 } :=
  ⟨rfl, rfl, rfl⟩
theorem witness_OnlyTheirWriters :
    exec (.rcSetm 4) State.reset = .next { State.reset with m := 4, b := 2, u := 0 } ∧
      exec (.plPut 9) State.reset = .next { State.reset with plane := [(0, 9#8)], paddr := 1 } ∧
      exec (.bsWbit true) State.reset = .next { State.reset with stream := [true] } := ⟨rfl, rfl, rfl⟩
theorem witness_StatusResultAndCountNeverSteer :
    exec .rcDec (coder 5 [0, 0, 0, 1]) = .next { coder 5 [0, 0, 0, 1] with rpos := 4, result := 1 } := rfl
theorem witness_RegisterReadPort : 11 ≤ 255 := by decide
theorem witness_InvalidParameterStops : State.reset.m = 0 := rfl
theorem witness_OutOfRangeOperandsAreIllegal :
    16 < 17 ∧ (coder 0 [1, 0]).slen < 3 ∧ (small 64 State.reset).params.planeCap ≤
      ({ small 64 State.reset with paddr := 64 } : State).paddr := by decide
theorem witness_StreamFullWritesNothing :
    let s := capped 8 (coder 5 [0, 0, 0, 0, 0])
    s.params.streamCap = some 8 ∧ ¬ 8 < s.slen + 3 ∧ (4 ≤ 16 ∧ 8 < s.slen + 4) ∧
      (1 ≤ s.m ∧ valuesFit s.params (symbolValues s.rice 0) = true ∧ 8 < s.slen + (symbolBits s.rice 0).length) ∧
      8 < (capped 8 (coder 5 [0, 0, 0, 0, 0, 0, 0, 0])).slen + 1 := by decide
theorem witness_StreamControlCommandsComplete : 3 ≤ busy.slen := by decide
theorem witness_WritesAppendTheirBits :
    (∀ cap ∈ (capped 8 (coder 0 [0, 0, 0, 0, 0, 0, 0])).params.streamCap,
      (capped 8 (coder 0 [0, 0, 0, 0, 0, 0, 0])).slen + 1 ≤ cap) ∧
    16 ≤ 16 ∧ (∀ cap ∈ (capped 16 (coder 0 [])).params.streamCap, (capped 16 (coder 0 [])).slen + 16 ≤ cap) := by
  simp [capped, coder, State.reset, bits, State.slen]
theorem witness_FlushPadsToAWholeByte :
    ParamsLegal (capped 8 (coder 0 [1])).params ∧ StreamInv (capped 8 (coder 0 [1])) := by
  simp [ParamsLegal, StreamInv, capped, coder, State.reset, bits, State.slen, Config.planeCapMax]
theorem witness_ReadsReturnTheNextBits :
    let s := { coder 0 [1, 0, 1] with rpos := 2 }
    s.stream[s.rpos]? = some true ∧ fitsDomain s.params true.toNat = true ∧
      (0 ≤ 16 ∧ (coder 0 []).rpos + 0 ≤ (coder 0 []).slen) ∧ (1 ≤ 16 ∧ s.rpos + 1 ≤ s.slen) := by decide
theorem witness_ReadsAtTheEndOfTheStream :
    let s := { coder 0 [1, 0, 1] with rpos := 2 }
    busy.rpos ≤ busy.slen ∧ busy.rpos = busy.slen ∧ s.rpos ≤ s.slen ∧ 2 ≤ 16 ∧ s.slen < s.rpos + 2 := by decide
theorem witness_ByteViewIsWhatByteReadsGive :
    let s := { coder 0 [1, 1, 0, 1, 0, 1, 1, 0, 1, 0, 1, 0, 1, 0, 1, 1] with rpos := 8 }
    DefaultDomain s ∧ s.rpos = 8 * 1 ∧ 8 * 1 + 8 ≤ s.slen := by decide
theorem witness_GroupsReadBackAsWritten :
    let s := capped 16 (coder 0 [])
    DefaultDomain s ∧ 16 ≤ 16 ∧ s.stream = [] ∧ s.rpos = 0 ∧ ∀ cap ∈ s.params.streamCap, 16 ≤ cap := by
  simp [capped, coder, State.reset, bits]
theorem witness_SetmComputesTheParameters : 1 ≤ 1 ∧ 1 ≤ 16777215 := by decide
theorem witness_EncAppendsOneSymbol :
    let s := capped 8 (coder 5 [0])
    1 ≤ s.m ∧ valuesFit s.params [-13, 13, 2, 3] = true ∧
      ∀ cap ∈ s.params.streamCap, s.slen + ([true, true, true, false, true, true, false] : List Bool).length ≤ cap := by
  simp [capped, coder, State.reset, bits, State.slen, valuesFit, fitsDomain]
theorem witness_SymLenIsTheNumberOfBits : 1 ≤ 1 := by decide
theorem witness_SymbolRoundTrip :
    let s := coder 5 [1, 1, 1, 0, 1, 1, 0, 1]
    1 ≤ s.m ∧ s.rice = riceOf s.m ∧ valuesFit s.params (symbolValues s.rice (-13)) = true ∧
      s.unread = symbolBits s.rice (-13) ++ [true] := by decide
theorem witness_NegativeZeroDecodesToZero :
    let s := coder 5 [1, 0, 0, 0]
    1 ≤ s.m ∧ s.rice = riceOf s.m ∧ DefaultDomain s ∧
      s.unread = true :: ((symbolBits s.rice 0).tail ++ []) := by decide
theorem witness_DecodedSymbolsAreTheEncodersOwn :
    1 ≤ (coder 5 [1, 0, 0, 0]).m ∧ (coder 5 [1, 0, 0, 0]).rice = riceOf 5 ∧
      exec .rcDec (coder 5 [1, 0, 0, 0]) = .next { coder 5 [1, 0, 0, 0] with rpos := 4, result := 0 } ∧
      ({ coder 5 [1, 0, 0, 0] with rpos := 4, result := 0 } : State).last = .ok := ⟨by decide, rfl, rfl, rfl⟩
theorem witness_DecodedSymbolsAreTheEncodersOwn_value :
    1 ≤ (coder 5 [1, 1, 0, 1, 0]).m ∧ (coder 5 [1, 1, 0, 1, 0]).rice = riceOf 5 ∧
      exec .rcDec (coder 5 [1, 1, 0, 1, 0]) = .next { coder 5 [1, 1, 0, 1, 0] with rpos := 5, result := -7 } ∧
      ({ coder 5 [1, 1, 0, 1, 0] with rpos := 5, result := -7 } : State).last = .ok := ⟨by decide, rfl, rfl, rfl⟩
theorem witness_DecAtTheEndOfTheStream :
    let s := coder 5 [1, 1, 1, 0, 1, 1]
    1 ≤ s.m ∧ s.rice = riceOf s.m ∧ s.rpos ≤ s.slen ∧ (coder 5 []).unread = [] ∧ s.unread ≠ [] ∧
      [false] ≠ [] ∧ symbolBits s.rice (-13) = s.unread ++ [false] := by decide

/-- A symbol cut after its sign bit, and one cut inside its unary run. -/
theorem witness_DecAtTheEndOfTheStream_unary :
    symbolBits (coder 5 [1]).rice (-13) = (coder 5 [1]).unread ++ [true, true, false, true, true, false] ∧
      symbolBits (coder 5 [1, 1, 1]).rice (-13) = (coder 5 [1, 1, 1]).unread ++ [false, true, true, false] := by decide
theorem witness_PredGivesTheMedianEdge :
    valuesFit (narrow 10 plane3).params ((narrow 10 plane3).predictValues 1 1) = true ∧
      (0 ≤ (2 : Int) ∧ (2 : Int) < plane3.rows) ∧ (plane3.rows : Int) ≤ 3 ∧ (-1 : Int) < 0 := by decide
theorem witness_EdgePredictions : 1 ≤ 1 := by decide
theorem witness_PredictionIsCausal :
    let t := withPlane 3 3 [10, 20, 30, 40, 0, 0, 0, 0, 0] State.reset
    t.rows = plane3.rows ∧ t.cols = plane3.cols ∧ 4 < plane3.positions ∧
      ∀ a, a < 4 → t.cell a = plane3.cell a := by decide
theorem witness_SetdimSetsTheGeometry :
    8 * 8 ≤ (small 64 State.reset).params.planeCap ∧ (small 64 State.reset).params.planeCap < 5 * 13 ∧
      State.reset.params.planeCap = 2 ^ 24 ∧ (Instr.plSetdim 4095 4095).wf = true := by decide
theorem witness_SeekPutAndGetComplete :
    let s := { withPlane 1 2 [7, 9] (small 2 State.reset) with paddr := 1 }
    s.paddr < s.params.planeCap ∧ fitsDomain s.params (s.cell s.paddr).toNat = true := by decide
theorem witness_PlaneEncodeAppendsAllSymbols :
    let s := capped 16 (withPlane 1 2 [20, 20] (coder 4 [0, 0, 0]))
    1 ≤ s.m ∧
      (∀ k, k < s.rows * s.cols → valuesFit s.params (s.predictValues (k / s.cols) (k % s.cols) ++
        symbolValues s.rice (((s.cell k).toNat : Int) - s.predict (k / s.cols) (k % s.cols))) = true) ∧
      s.params.streamCap = some 16 ∧
      s.slen + ((List.range (s.rows * s.cols)).flatMap fun k =>
        symbolBits s.rice (((s.cell k).toNat : Int) - s.predict (k / s.cols) (k % s.cols))).length ≤ 16 := by
  decide +kernel
theorem witness_PlaneEncodeStopsWhenFull :
    let s := capped 16 (withPlane 1 3 [20, 20, 40] (coder 4 []))
    1 ≤ s.m ∧ DefaultDomain s ∧ s.params.streamCap = some 16 ∧ 2 < s.positions ∧
      s.slen + ((List.range 2).flatMap fun k => symbolBits s.rice (s.residual k)).length ≤ 16 ∧
      16 < s.slen + ((List.range 3).flatMap fun k => symbolBits s.rice (s.residual k)).length := by decide +kernel
/-- The premise on the values, with VAL_BITS = 11: every plane's values fit for these integers. -/
theorem fits_narrow (s : State) (h : s.params.valBits = some 11) (hm : s.m = 1) (p : Memory) (k : Nat) (d : Int)
    (hd : -2 ≤ d ∧ d ≤ 2) : valuesFit s.params (symbolValues s.rice d ++
      State.predictValues { s with plane := p } (k / s.cols) (k % s.cols) ++
      [State.predictAt { s with plane := p } k + d]) = true := by
  refine valuesFit_of_bounds h fun v hv => ?_
  have hp := State.planeRead_range { s with plane := p } (k / s.cols : Nat) ((k % s.cols : Nat) - 1)
  have hr := State.predictValues_range { s with plane := p } (k / s.cols) (k % s.cols)
  have hq : State.predictAt { s with plane := p } k ∈
      State.predictValues { s with plane := p } (k / s.cols) (k % s.cols) := by
    show medianEdge _ _ _ ∈ State.predictValues _ _ _
    unfold State.predictValues
    dsimp only
    split
    · exact List.mem_singleton.2 rfl
    · exact List.mem_pair.2 (.inr rfl)
  rcases List.mem_append.1 hv with hv | hv
  · rcases List.mem_append.1 hv with hv | hv
    · simp only [symbolValues, remainder_eq_mod, quotient, State.rice_m, hm, Nat.div_one, Nat.mod_one, List.mem_cons,
        List.not_mem_nil, or_false] at hv
      omega
    · have := hr v hv
      omega
  · have := hr _ hq
    rw [List.mem_singleton] at hv
    omega
theorem witness_PlaneDecodeReconstructs :
    let s := narrow 11 (withPlane 1 2 [9, 9] (coder 1 [0, 1, 1, 0, 1, 1, 1, 0, 1]))
    1 ≤ s.m ∧ s.rice = riceOf s.m ∧
      (∀ (p : Memory) k (h : k < [2, -2].length), valuesFit s.params (symbolValues s.rice [2, -2][k] ++
        State.predictValues { s with plane := p } (k / s.cols) (k % s.cols) ++
        [State.predictAt { s with plane := p } k + [2, -2][k]]) = true) ∧ [2, -2].length = s.positions ∧
      s.unread = ([2, -2].flatMap fun d => symbolBits s.rice d) ++ [true] :=
  ⟨by decide, rfl, fun p k h => fits_narrow _ rfl rfl p k _ (by
    match k, h with
    | 0, _ => simp
    | 1, _ => simp), rfl, rfl⟩

/-- Stopped inside a symbol. -/
theorem witness_PlaneDecodeStopsEarly :
    let s := narrow 11 (withPlane 1 2 [9, 9] (coder 1 [0, 1, 1, 0, 1, 1]))
    1 ≤ s.m ∧ s.rice = riceOf s.m ∧
      (∀ (p : Memory) k (h : k < [2].length), valuesFit s.params (symbolValues s.rice [2][k] ++
        State.predictValues { s with plane := p } (k / s.cols) (k % s.cols) ++
        [State.predictAt { s with plane := p } k + [2][k]]) = true) ∧ s.rpos ≤ s.slen ∧ [2].length < s.positions ∧
      s.unread = ([2].flatMap fun d => symbolBits s.rice d) ++ [true, true] ∧
      [true, false] ≠ [] ∧ symbolBits s.rice (-2) = [true, true] ++ [true, false] :=
  ⟨by decide, rfl, fun p k h => fits_narrow _ rfl rfl p k _ (by
    match k, h with
    | 0, _ => simp), by decide, by decide, rfl, by decide, rfl⟩

/-- Stopped between two symbols. -/
theorem witness_PlaneDecodeStopsEarly_clean :
    let s := narrow 11 (withPlane 1 2 [9, 9] (coder 1 [0, 1, 1, 0]))
    1 ≤ s.m ∧ s.rice = riceOf s.m ∧
      (∀ (p : Memory) k (h : k < [2].length), valuesFit s.params (symbolValues s.rice [2][k] ++
        State.predictValues { s with plane := p } (k / s.cols) (k % s.cols) ++
        [State.predictAt { s with plane := p } k + [2][k]]) = true) ∧ s.rpos ≤ s.slen ∧ [2].length < s.positions ∧
      s.unread = ([2].flatMap fun d => symbolBits s.rice d) ++ [] :=
  ⟨by decide, rfl, fun p k h => fits_narrow _ rfl rfl p k _ (by
    match k, h with
    | 0, _ => simp), by decide, by decide, rfl⟩
theorem witness_PlaneRoundTrip :
    let s := withPlane 1 2 [2, 0] (coder 1 [])
    let t := { s with stream := bits [0, 1, 1, 0, 1, 1, 1, 0], count := 2 }
    let d := withPlane 1 2 [] (coder 1 [0, 1, 1, 0, 1, 1, 1, 0, 1])
    1 ≤ s.m ∧ s.rice = riceOf s.m ∧ DefaultDomain s ∧ (∀ k, k < s.positions → Memory.read? s.plane k ≠ none) ∧
      exec .plEnc s = .next t ∧ t.last = .ok ∧ d.rice = s.rice ∧ d.rows = s.rows ∧ d.cols = s.cols ∧
      DefaultDomain d ∧ d.rpos = s.slen ∧ d.stream = t.stream ++ [true] :=
  ⟨by decide, rfl, rfl, by decide, rfl, rfl, rfl, rfl, rfl, rfl, rfl, rfl⟩
theorem witness_ZeroSizePlanes :
    (withPlane 0 5 [] (coder 4 [])).rows = 0 ∧ (withPlane 5 0 [] (coder 4 [])).cols = 0 ∧ 1 ≤ (coder 4 []).m := by
  decide
theorem witness_PlaneDecodeIgnoresTheOldPlane :
    let s := withPlane 1 1 [9] (coder 1 [0, 1, 0])
    let d := { withPlane 1 1 [] (coder 1 [1, 0, 1, 0]) with rpos := 1 }
    let t := { s with plane := [(0, 1#8)], count := 1, rpos := 3 }
    1 ≤ s.m ∧ d.rice = s.rice ∧ d.rows = s.rows ∧ d.cols = s.cols ∧ d.params = s.params ∧ d.unread = s.unread ∧
      exec .plDec s = .next t := ⟨by decide, rfl, rfl, rfl, rfl, rfl, rfl⟩

theorem witness_ValuesOutsideTheDomainAreRefused :
    (narrow 4 plane3).params.valBits = some 4 ∧ (narrow 1 (coder 0 [1])).unread = true :: [] ∧
      (4 ≤ 16 ∧ 8 < 2 ^ 4 ∧ (narrow 4 (coder 0 [1, 0, 0, 0, 1])).unread = putBits 4 8 ++ [true]) ∧
      (narrow 4 plane3).paddr < (narrow 4 plane3).params.planeCap ∧
      (1 ≤ (narrow 4 (coder 5 [])).m ∧ (narrow 4 (coder 5 [0, 1, 0, 1, 1, 0])).rice = riceOf 5 ∧
        (narrow 4 (coder 5 [0, 1, 0, 1, 1, 0])).unread = symbolBits (riceOf 5) 8 ++ []) := by decide

/-- The second position of a plane is the first whose values do not fit: 9 with VAL_BITS = 4. -/
theorem witness_PassesRefuseValuesOutsideTheDomain :
    let s := narrow 4 (withPlane 1 2 [1, 10] (coder 1 ([0, 1, 0] ++ [0, 1, 1, 1, 1, 1, 1, 1, 1, 1, 0])))
    let p : Memory := [(0, 1#8)]
    1 ≤ s.m ∧ s.rice = riceOf s.m ∧ 1 < s.positions ∧
      valuesFit s.params (s.predictValues 0 1 ++ symbolValues s.rice (s.residual 1)) = false ∧
      s.unread = ([1].flatMap fun x => symbolBits s.rice x) ++ (symbolBits s.rice 9 ++ []) ∧
      (Memory.read? p 0 = some 1#8 ∧ ((1#8).toNat : Int) = (State.predictAt { s with plane := p } 0 + 1) % 256) ∧
      valuesFit s.params (symbolValues s.rice 9 ++ State.predictValues { s with plane := p } 0 1 ++
        [State.predictAt { s with plane := p } 1 + 9]) = false := by decide

/-- A pass with a value outside a finite domain is refused (U6, log 7). -/
theorem test_pass_refused :
    refusedAs .valueOutsideDomain 0x41000000#32 (narrow 4 (withPlane 1 2 [1, 10] (coder 1 []))) = true := by decide

/-- With VAL_BITS = 2 a symbol cut after five ones completes with IncompleteStream, unchecked (log 14). -/
theorem test_cut_symbol_unchecked :
    (after 0x22000000#32 (narrow 2 (coder 1 [0, 1, 1, 1, 1, 1]))).map statusWord = some 0x412#32 := by decide

end Sys2Proof.Machine.Tests
end

section
/-! SUPPORT. When a command is refused (U6): only a check of its values refuses it, and for each command that has such a
check, exactly which values it is. -/

namespace Sys2Proof.Machine

/-! The check of the values. -/

/-- A check refuses exactly when a value does not fit or what follows it is refused. -/
theorem withValues_stops_iff {s : State} {vs : List Int} {k : Answer} :
    withValues s vs k = .refused .valueOutsideDomain ↔
      valuesFit s.params vs = false ∨ k = .refused .valueOutsideDomain := by
  unfold withValues
  split <;> simp_all

/-- When the command would complete, the check alone decides whether it is refused. -/
theorem withValues_next_stops_iff {s t : State} {vs : List Int} :
    withValues s vs (.next t) = .refused .valueOutsideDomain ↔ valuesFit s.params vs = false := by
  simp [withValues_stops_iff]

/-- The signed domain of `n` bits, by its bounds: −2^(n−1) to 2^(n−1) − 1, doubled so that `n = 0` needs no
case (R10). -/
def InDomain (n : Nat) (v : Int) : Prop :=
  -(2 ^ n) ≤ 2 * v ∧ 2 * v < 2 ^ n

theorem fitsDomain_iff {p : Config.Params} {n : Nat} (h : p.valBits = some n) (v : Int) :
    fitsDomain p v = true ↔ InDomain n v := by
  simp [fitsDomain, InDomain, h]

/-! Every refusal bears the one name. -/

/-- If `a`, an answer from `s`, is a refusal, it bears the name of U6 and VAL_BITS is finite. -/
def StopsByName (s : State) (a : Answer) : Prop :=
  ∀ r, a = .refused r → r = .valueOutsideDomain ∧ s.params.valBits ≠ none

theorem StopsByName.next {s : State} (t : State) : StopsByName s (.next t) :=
  fun _ h => nomatch h

theorem StopsByName.ite {s : State} {c : Prop} [Decidable c] {a b : Answer} (ha : StopsByName s a)
    (hb : StopsByName s b) : StopsByName s (if c then a else b) := by
  split
  · exact ha
  · exact hb

theorem StopsByName.values {s : State} {a : Answer} (vs : List Int) (ha : StopsByName s a) :
    StopsByName s (withValues s vs a) :=
  fun r h => (withValues_refused h).elim id (ha r)

theorem execBsRbit_stopsByName (s : State) : StopsByName s (execBsRbit s) := by
  unfold execBsRbit
  split
  · exact .next _
  · exact .values _ (.next _)

theorem execBsRbits_stopsByName (n : Nat) (s : State) : StopsByName s (execBsRbits n s) := by
  refine .ite ?_ (.next _)
  split
  · exact .next _
  · exact .values _ (.next _)

theorem execRcDec_stopsByName (s : State) : StopsByName s (execRcDec s) := by
  refine .ite ?_ (.next _)
  split
  · exact .next _
  · exact .next _
  · exact .values _ (.next _)

/-- The commands, arm by arm: a next state, or a check of values, or a pass made of such checks. -/
theorem exec_stopsByName (i : Instr) (s : State) : StopsByName s (exec i s) := by
  cases i with
  | nop => exact .next _
  | clrerr => exact .next _
  | bsClear => exact .next _
  | bsRewind => exact .next _
  | bsWbit bit => exact .ite (.next _) (.next _)
  | bsWbits n v => exact .ite (.ite (.next _) (.next _)) (.next _)
  | bsRbit => exact execBsRbit_stopsByName s
  | bsRbits n => exact execBsRbits_stopsByName n s
  | bsFlush => exact .ite (.next _) (.next _)
  | bsTrunc n => exact .ite (.next _) (.next _)
  | rcSetm m => exact .ite (.next _) (.next _)
  | rcEnc value => exact .ite (.values _ (.ite (.next _) (.next _))) (.next _)
  | rcDec => exact execRcDec_stopsByName s
  | prPred row col => exact .values _ (.next _)
  | plSetdim rows cols => exact .ite (.next _) (.next _)
  | plEnc => exact .ite (fun _ h => encodePass_refused (s := { s with count := 0 }) h) (.next _)
  | plDec =>
    exact .ite (fun _ h => decodePass_refused
      (s := { s with plane := Memory.zeroFill s.positions s.plane, count := 0 }) h) (.next _)
  | plSeek addr => exact .next _
  | plPut sample => exact .ite (.next _) (.next _)
  | plGet => exact .ite (.values _ (.next _)) (.next _)

/-- Settles O13, by the command's arm. -/
theorem stopsOnlyOutsideTheValueDomain : Obligations.StopsOnlyOutsideTheValueDomain :=
  exec_stopsByName

/-! The operands checked at execution (R86, R217). -/

@[simp] theorem groupLegal_iff {n : Nat} : groupLegal n = true ↔ n ≤ 16 := decide_eq_true_iff

@[simp] theorem parameterLegal_iff {m : Nat} : parameterLegal m = true ↔ 1 ≤ m := decide_eq_true_iff

@[simp] theorem paddrLegal_iff {s : State} : paddrLegal s = true ↔ s.paddr < s.params.planeCap := decide_eq_true_iff

@[simp] theorem parameterSet_iff {s : State} : parameterSet s = true ↔ 1 ≤ s.m := decide_eq_true_iff

/-! RC.SETM. -/

/-- `clog2(m)` is the least exponent (R12). -/
theorem clog2_le {m b : Nat} (h : m ≤ 2 ^ b) : clog2 m ≤ b :=
  not_lt.1 fun hlt => absurd (two_pow_lt_of_lt_clog2 hlt) (not_lt.2 h)

/-- RC.SETM with a legal parameter (R145). -/
theorem execRcSetm_of_pos {m : Nat} (hm : 1 ≤ m) (s : State) :
    execRcSetm m s =
      .next { s with m := m, b := clog2 m, u := 2 ^ clog2 m - m, last := .ok, midsym := false } :=
  if_pos (parameterLegal_iff.2 hm)

/-- Settles O32, with `clog2(m)` as B. -/
theorem setmComputesTheParameters : Obligations.SetmComputesTheParameters :=
  fun s m hm => ⟨clog2 m, le_two_pow_clog2 m, fun _ => clog2_le, execRcSetm_of_pos hm s⟩

/-! The refusals of the single commands. -/

theorem execBsRbit_stops_iff {s : State} {bit : Bool} {rest : List Bool} (h : s.unread = bit :: rest) :
    execBsRbit s = .refused .valueOutsideDomain ↔ valuesFit s.params [(bit.toNat : Int)] = false := by
  unfold execBsRbit
  rw [h]
  exact withValues_next_stops_iff

theorem execBsRbits_stops_iff {s : State} {n x : Nat} {rest : List Bool} (hn : n ≤ 16)
    (hx : x < 2 ^ n) (h : s.unread = putBits n x ++ rest) :
    execBsRbits n s = .refused .valueOutsideDomain ↔ valuesFit s.params [(x : Int)] = false := by
  unfold execBsRbits
  rw [if_pos (groupLegal_iff.2 hn), getBits_eq_some_iff.2 ⟨hx, h⟩]
  exact withValues_next_stops_iff

theorem execPrPred_stops_iff {s : State} {row col : Nat} :
    execPrPred row col s = .refused .valueOutsideDomain ↔ valuesFit s.params (s.predictValues row col) = false :=
  withValues_next_stops_iff

theorem execPlGet_stops_iff {s : State} (h : s.paddr < s.params.planeCap) :
    execPlGet s = .refused .valueOutsideDomain ↔
      valuesFit s.params [((s.cell s.paddr).toNat : Int)] = false := by
  unfold execPlGet
  rw [if_pos (paddrLegal_iff.2 h)]
  exact withValues_next_stops_iff

/-- RC.ENC checks its values before the room, so that the room has no part in it (log 7). -/
theorem execRcEnc_stops_iff {s : State} (hm : 1 ≤ s.m) (v : Int) :
    execRcEnc v s = .refused .valueOutsideDomain ↔ valuesFit s.params (symbolValues s.rice v) = false := by
  unfold execRcEnc
  rw [if_pos (parameterSet_iff.2 hm)]
  split <;> exact withValues_next_stops_iff

/-- A symbol followed by any bits reads back as its value (R140). -/
theorem takeSymbol_symbolBits_append {m : Nat} (hm : 1 ≤ m) (v : Int) (rest : List Bool) :
    takeSymbol (riceOf m) (symbolBits (riceOf m) v ++ rest) = .value v rest := by
  refine (takeSymbol_value_iff hm).2 ⟨decide (v < 0), quotient (riceOf m) v, remainder (riceOf m) v,
    remainder_lt hm v, ?_, by simp [symbolBits]⟩
  have hmag : quotient (riceOf m) v * m + remainder (riceOf m) v = v.natAbs := quotient_remainder (riceOf m) v
  rw [hmag, signed]
  by_cases hneg : v < 0
  · rw [if_pos (decide_eq_true hneg)]; omega
  · rw [if_neg (by simpa using hneg)]; omega

/-- The read of a whole symbol at the cursor. -/
theorem State.takeSymbol_unread {s : State} {m : Nat} (hm : 1 ≤ m) (hrice : s.rice = riceOf m) {v : Int}
    {rest : List Bool} (h : s.unread = symbolBits s.rice v ++ rest) : takeSymbol s.rice s.unread = .value v rest := by
  rw [h, hrice]
  exact takeSymbol_symbolBits_append hm v rest

/-- RC.DEC with a whole symbol at the cursor. -/
theorem execRcDec_stops_iff {s : State} (hm : 1 ≤ s.m) (hrice : s.rice = riceOf s.m) {v : Int} {rest : List Bool}
    (h : s.unread = symbolBits s.rice v ++ rest) :
    execRcDec s = .refused .valueOutsideDomain ↔ valuesFit s.params (symbolValues s.rice v) = false := by
  unfold execRcDec
  rw [if_pos (parameterSet_iff.2 hm), State.takeSymbol_unread hm hrice h]
  exact withValues_next_stops_iff

/-! The same values, one by one against the bounds. -/

section Bounds

variable {p : Config.Params} {n : Nat}

theorem valuesFit_singleton_eq_false_iff (h : p.valBits = some n) (v : Int) :
    valuesFit p [v] = false ↔ ¬ InDomain n v := by
  rw [← fitsDomain_iff h, ← Bool.not_eq_true, valuesFit_cons, valuesFit_nil, Bool.and_true]

/-- `A + B` is among the values of a prediction exactly in the gradient branch (R162). -/
theorem valuesFit_predictValues_eq_false_iff (h : p.valBits = some n) (s : State) (row col : Nat) :
    valuesFit p (s.predictValues row col) = false ↔
      ¬ (InDomain n (s.predict row col) ∧
        (min (s.leftOf row col) (s.topOf row col) < s.topLeftOf row col →
          s.topLeftOf row col < max (s.leftOf row col) (s.topOf row col) →
          InDomain n (s.leftOf row col + s.topOf row col))) := by
  rw [← Bool.not_eq_true, not_iff_not]
  unfold State.predictValues State.predict
  dsimp only
  generalize s.leftOf row col = a, s.topOf row col = b, s.topLeftOf row col = c
  split
  next hedge =>
    have hno : min a b < c → ¬ c < max a b := by omega
    simp only [valuesFit_cons, valuesFit_nil, Bool.and_true, fitsDomain_iff h]
    exact (and_iff_left fun h1 h2 => absurd h2 (hno h1)).symm
  next hgradient =>
    have h1 : min a b < c := by omega
    have h2 : c < max a b := by omega
    simp only [valuesFit_cons, valuesFit_nil, Bool.and_true, Bool.and_eq_true, fitsDomain_iff h, h1, h2, forall_const]
    exact and_comm

/-- The values of a symbol: the value, its magnitude, and the two parts of the magnitude (R10, R135). -/
theorem valuesFit_symbolValues_eq_false_iff (h : p.valBits = some n) (c : Rice) (v : Int) :
    valuesFit p (symbolValues c v) = false ↔
      ¬ (InDomain n v ∧ InDomain n (v.natAbs : Nat) ∧ InDomain n (v.natAbs / c.m : Nat) ∧
        InDomain n (v.natAbs % c.m : Nat)) := by
  simp only [← Bool.not_eq_true, symbolValues, quotient, remainder_eq_mod, valuesFit_cons, valuesFit_nil,
    Bool.and_true, Bool.and_eq_true, fitsDomain_iff h]

end Bounds

/-- Settles O53: for each command, the check of its values, read against the bounds. -/
theorem valuesOutsideTheDomainAreRefused : Obligations.ValuesOutsideTheDomainAreRefused := by
  intro s n hn
  refine ⟨fun bit rest h => ?_, fun k x rest hk hx h => ?_, fun row col => ?_, fun h => ?_, fun hm => ⟨fun v => ?_,
    fun hrice v rest h => ?_⟩⟩
  · exact (execBsRbit_stops_iff h).trans (valuesFit_singleton_eq_false_iff hn _)
  · exact (execBsRbits_stops_iff hk hx h).trans (valuesFit_singleton_eq_false_iff hn _)
  · exact execPrPred_stops_iff.trans (valuesFit_predictValues_eq_false_iff hn s row col)
  · exact (execPlGet_stops_iff h).trans (valuesFit_singleton_eq_false_iff hn _)
  · exact (execRcEnc_stops_iff hm v).trans (valuesFit_symbolValues_eq_false_iff hn s.rice v)
  · exact (execRcDec_stops_iff hm hrice h).trans (valuesFit_symbolValues_eq_false_iff hn s.rice v)

/-! PL.ENC: the values of every position it reaches. -/

/-- The values PL.ENC checks at position `k` (log 7). -/
def State.encodeValues (s : State) (k : Nat) : List Int :=
  s.predictValues (s.rowOf k) (s.colOf k) ++ symbolValues s.rice (s.residual k)

/-- The symbols of the `j` positions from `k` on (R172). -/
def State.symbolsFrom (s : State) (k j : Nat) : List Bool :=
  (List.range' k j).flatMap fun i => symbolBits s.rice (s.residual i)

theorem State.symbolsFrom_succ (s : State) (k j : Nat) :
    s.symbolsFrom k (j + 1) = symbolBits s.rice (s.residual k) ++ s.symbolsFrom (k + 1) j := rfl

theorem State.encodeValues_encodedAt (s : State) (k i : Nat) : (s.encodedAt k).encodeValues i = s.encodeValues i := by
  rw [State.encodeValues, State.residual_encodedAt]
  rfl

theorem State.symbolsFrom_encodedAt (s : State) (k i j : Nat) :
    (s.encodedAt k).symbolsFrom i j = s.symbolsFrom i j := by
  simp only [State.symbolsFrom, State.residual_encodedAt, State.rice_encodedAt]

/-- After position `k` there is room for what had room together with its symbol. -/
theorem State.roomFor_encodedAt (s : State) (k n : Nat) :
    (s.encodedAt k).roomFor n = s.roomFor ((symbolBits s.rice (s.residual k)).length + n) := by
  rw [Bool.eq_iff_iff, State.roomFor_iff, State.roomFor_iff]
  simp only [State.encodedAt_params, State.slen, State.encodedAt_stream, List.length_append, Nat.add_assoc]

/-- The encode pass is refused exactly at a position whose values do not fit, the symbols of all positions before it
having found room (R180, R222, U6). -/
theorem encodePass_stops_iff {n k : Nat} {s : State} :
    encodePass n k s = .refused .valueOutsideDomain ↔
      ∃ j < n, (∀ i < j, s.roomFor (s.symbolsFrom k (i + 1)).length = true) ∧
        valuesFit s.params (s.encodeValues (k + j)) = false := by
  induction n generalizing k s with
  | zero => simp [encodePass]
  | succ n ih =>
    have hfirst : (s.symbolsFrom k 1).length = symLen s.rice (s.residual k) := by
      simp [State.symbolsFrom]
    have hlater : (if s.roomFor (symLen s.rice (s.residual k)) then encodePass n (k + 1) (s.encodedAt k)
          else raise .streamFull s) = .refused .valueOutsideDomain ↔
        ∃ j < n, (∀ i < j + 1, s.roomFor (s.symbolsFrom k (i + 1)).length = true) ∧
          valuesFit s.params (s.encodeValues (k + (j + 1))) = false := by
      simp only [Nat.forall_lt_succ_left, Nat.zero_add, hfirst]
      split
      next hroom =>
        simp only [ih, hroom, true_and, State.roomFor_encodedAt, State.symbolsFrom_encodedAt,
          State.encodeValues_encodedAt, State.encodedAt_params, State.symbolsFrom_succ s k (_ + 1),
          List.length_append, Nat.add_right_comm k 1, Nat.add_assoc]
      next hfull => simp [hfull]
    rw [encodePass, withValues_stops_iff, hlater, Nat.exists_lt_succ_left]
    simp [State.encodeValues]

/-- PL.ENC in the terms of its statement. -/
theorem execPlEnc_stops_iff {s : State} (hm : 1 ≤ s.m) :
    execPlEnc s = .refused .valueOutsideDomain ↔
      ∃ j < s.positions, (∀ i < j, s.roomFor (s.symbolsFrom 0 (i + 1)).length = true) ∧
        valuesFit s.params (s.encodeValues j) = false := by
  unfold execPlEnc
  rw [if_pos (parameterSet_iff.2 hm), encodePass_stops_iff]
  simp only [Nat.zero_add]
  rfl

/-! PL.DEC: the values of every position, each predicted from the cells reconstructed so far. -/

/-- The values PL.DEC checks at position `k` for the symbol value `d` (log 7). -/
def State.decodeValues (s : State) (k : Nat) (d : Int) : List Int :=
  symbolValues s.rice d ++ s.predictValues (s.rowOf k) (s.colOf k) ++ [s.predictAt k + d]

/-- `t` and `s` agree on all that decoding position `k` looks at: the coder, the geometry, the value domain, and the
cells before `k`. -/
structure State.AgreesBelow (s t : State) (k : Nat) : Prop where
  rice : t.rice = s.rice
  rows : t.rows = s.rows
  cols : t.cols = s.cols
  params : t.params = s.params
  cells : ∀ a < k, t.cell a = s.cell a

section Agreement

variable {s t : State} {k : Nat}

theorem State.AgreesBelow.rowOf (h : s.AgreesBelow t k) : t.rowOf k = s.rowOf k := by
  rw [State.rowOf, State.rowOf, h.cols]

theorem State.AgreesBelow.colOf (h : s.AgreesBelow t k) : t.colOf k = s.colOf k := by
  rw [State.colOf, State.colOf, h.cols]

/-- The three neighbours of a position stand before it in raster order, or outside the plane (R165). -/
theorem State.AgreesBelow.neighbours (h : s.AgreesBelow t k) (hpos : 0 < s.cols) :
    t.leftOf (s.rowOf k) (s.colOf k) = s.leftOf (s.rowOf k) (s.colOf k) ∧
      t.topOf (s.rowOf k) (s.colOf k) = s.topOf (s.rowOf k) (s.colOf k) ∧
      t.topLeftOf (s.rowOf k) (s.colOf k) = s.topLeftOf (s.rowOf k) (s.colOf k) := by
  have hk : s.rowOf k * s.cols + s.colOf k = k := Nat.div_add_mod' k s.cols
  have hcol : s.colOf k < s.cols := Nat.mod_lt k hpos
  generalize s.rowOf k = row, s.colOf k = col at hk hcol
  have hread : ∀ x y : Int, (0 ≤ x → 0 ≤ y → x * s.cols + y < k) → t.planeRead x y = s.planeRead x y :=
    fun x y hbefore => State.planeRead_congr h.rows h.cols fun hx _ hy _ => h.cells _ (by
      have := hbefore hx hy
      have := mul_nonneg hx (Int.natCast_nonneg s.cols)
      omega)
  have hkInt : (row : Int) * s.cols + col = k := by exact_mod_cast hk
  have habove : ((row : Int) - 1) * s.cols = row * s.cols - s.cols := by ring
  exact ⟨hread _ _ fun _ _ => by omega, hread _ _ fun _ _ => by omega, hread _ _ fun _ _ => by omega⟩

theorem State.AgreesBelow.predictAt (h : s.AgreesBelow t k) (hpos : 0 < s.cols) : t.predictAt k = s.predictAt k := by
  obtain ⟨hleft, htop, htopLeft⟩ := h.neighbours hpos
  simp only [State.predictAt, State.predict, h.rowOf, h.colOf, hleft, htop, htopLeft]

theorem State.AgreesBelow.decodeValues (h : s.AgreesBelow t k) (hpos : 0 < s.cols) (d : Int) :
    t.decodeValues k d = s.decodeValues k d := by
  obtain ⟨hleft, htop, htopLeft⟩ := h.neighbours hpos
  simp only [State.decodeValues, h.predictAt hpos, h.rice, State.predictValues, h.rowOf, h.colOf, hleft, htop, htopLeft]

/-- Reconstructing cell `k` as `s` holds it keeps the agreement for the next position (R174). -/
theorem State.AgreesBelow.decodedAt (h : s.AgreesBelow t k) (hpos : 0 < s.cols) {d : Int} (rest : List Bool)
    (hcell : ((s.cell k).toNat : Int) = (s.predictAt k + d) % 256) :
    s.AgreesBelow (t.decodedAt k d rest) (k + 1) where
  rice := h.rice
  rows := h.rows
  cols := h.cols
  params := h.params
  cells a ha := by
    have hwritten : (t.decodedAt k d rest).cell a =
        if k = a then wrapSample (t.predictAt k + d) else t.cell a :=
      State.cell_writeCell (t.consumeTo rest) k a _
    rw [hwritten]
    split
    next heq =>
      subst heq
      apply BitVec.eq_of_toNat_eq
      have := wrapSample_toNat (t.predictAt k + d)
      rw [h.predictAt hpos] at this ⊢
      omega
    next hne => exact h.cells a (by omega)

end Agreement

/-- What is left to read after position `k` is what follows its symbol. -/
theorem State.unread_decodedAt {s : State} {pre rest : List Bool} (h : s.unread = pre ++ rest) (k : Nat) (d : Int) :
    (s.decodedAt k d rest).unread = rest :=
  (State.unread_congr (s := s.consumeTo rest) rfl rfl).trans (State.unread_consumeTo h)

/-- One position of the decode pass whose symbol stands whole at the cursor. -/
theorem decodePass_of_symbol {n k m : Nat} {s : State} {d : Int} {rest : List Bool} (hm : 1 ≤ m)
    (hrice : s.rice = riceOf m) (h : s.unread = symbolBits s.rice d ++ rest) :
    decodePass (n + 1) k s =
      withValues s (s.decodeValues k d) (decodePass n (k + 1) (s.decodedAt k d rest)) := by
  rw [decodePass, State.takeSymbol_unread hm hrice h]
  rfl

/-- The decode pass from `k` on is refused when, after the whole symbols of `ds`, the values of the next whole symbol's
position do not fit: `s` is a state that holds the cells `ds` reconstructs, and `t` the state the pass has reached. -/
theorem decodePass_stops {s : State} {m : Nat} (hm : 1 ≤ m) (hrice : s.rice = riceOf m) (hpos : 0 < s.cols)
    {d : Int} {rest : List Bool} {ds : List Int} {n k : Nat} {t : State} (hagree : s.AgreesBelow t k)
    (hlen : ds.length < n)
    (hunread : t.unread = (ds.flatMap fun x => symbolBits s.rice x) ++ (symbolBits s.rice d ++ rest))
    (hbuilt : ∀ i (h : i < ds.length), ((s.cell (k + i)).toNat : Int) = (s.predictAt (k + i) + ds[i]) % 256)
    (hunfit : valuesFit s.params (s.decodeValues (k + ds.length) d) = false) :
    decodePass n k t = .refused .valueOutsideDomain := by
  induction n generalizing ds k t with
  | zero => exact absurd hlen (Nat.not_lt_zero _)
  | succ n ih =>
    have htrice : t.rice = riceOf m := hagree.rice.trans hrice
    cases ds with
    | nil =>
      have hsymbol : t.unread = symbolBits t.rice d ++ rest := by rw [hagree.rice]; exact hunread
      rw [decodePass_of_symbol hm htrice hsymbol, withValues_stops_iff, hagree.params, hagree.decodeValues hpos]
      exact .inl hunfit
    | cons x ds =>
      have hsymbol : t.unread = symbolBits t.rice x ++
          ((ds.flatMap fun x => symbolBits s.rice x) ++ (symbolBits s.rice d ++ rest)) := by
        rw [hagree.rice, ← List.append_assoc]
        exact hunread
      rw [decodePass_of_symbol hm htrice hsymbol, withValues_stops_iff]
      have hshift : ∀ i, k + 1 + i = k + (i + 1) := fun i => by omega
      refine .inr (ih (hagree.decodedAt hpos _ (hbuilt 0 (Nat.zero_lt_succ _))) (Nat.lt_of_succ_lt_succ hlen)
        (State.unread_decodedAt hsymbol k x) (fun i hi => ?_) ?_)
      · rw [hshift]
        exact hbuilt (i + 1) (Nat.succ_lt_succ hi)
      · rw [hshift]
        exact hunfit

/-- PL.DEC from a state whose stream holds the symbols of `ds` and then that of `d`; `p` is any plane store that holds
what `ds` reconstructs, whatever its other cells. -/
theorem execPlDec_stops {s : State} (hm : 1 ≤ s.m) (hrice : s.rice = riceOf s.m) {p : Memory} {ds : List Int} {d : Int}
    {rest : List Bool} (hlen : ds.length < s.positions)
    (hunread : s.unread = (ds.flatMap fun x => symbolBits s.rice x) ++ (symbolBits s.rice d ++ rest))
    (hbuilt : ∀ k (h : k < ds.length), ∃ v, Memory.read? p k = some v ∧
      (v.toNat : Int) = (State.predictAt { s with plane := p } k + ds[k]) % 256)
    (hunfit : valuesFit s.params (State.decodeValues { s with plane := p } ds.length d) = false) :
    execPlDec s = .refused .valueOutsideDomain := by
  have hpos : 0 < s.cols := Nat.pos_of_ne_zero fun h0 => by
    rw [State.positions, h0, Nat.mul_zero] at hlen
    exact Nat.not_lt_zero _ hlen
  unfold execPlDec
  rw [if_pos (parameterSet_iff.2 hm)]
  refine decodePass_stops (s := { s with plane := p }) hm hrice hpos
    ⟨rfl, rfl, rfl, rfl, fun a ha => absurd ha (Nat.not_lt_zero a)⟩ hlen hunread (fun i hi => ?_) ?_
  · obtain ⟨v, hread, hv⟩ := hbuilt i hi
    rw [Nat.zero_add, State.cell_of_written hread]
    exact hv
  · rw [Nat.zero_add]
    exact hunfit

/-- Settles O54: PL.ENC by the positions of its pass, PL.DEC by following the plane it reconstructs. -/
theorem passesRefuseValuesOutsideTheDomain : Obligations.PassesRefuseValuesOutsideTheDomain := by
  intro s hm
  constructor
  · refine (execPlEnc_stops_iff hm).trans (exists_congr fun j => and_congr_right fun _ => and_congr_left fun _ => ?_)
    simp only [State.roomFor_iff, State.symbolsFrom, ← List.range_eq_range']
    exact ⟨fun h cap hcap k hk => h k hk cap hcap, fun h k hk cap hcap => h cap hcap k hk⟩
  · intro ds d rest p hrice hlen hunread hbuilt k hunfit
    exact execPlDec_stops hm hrice hlen hunread hbuilt hunfit

end Sys2Proof.Machine
end

section
/-! SUPPORT. What a command can do, said once (R110 to R191): every command that completes has done one of the listed
things to the state and has then written its status (R215). What each command leaves unchanged follows case by case. -/

namespace Sys2Proof.Machine

/-! The outcomes of a command. -/

/-- `Effect s i u c x`: the command `i`, issued in `s`, makes the state `u` and then completes with code `c`, its stream
having ended inside a symbol when `x`. A condition by which nothing was done at all is one rule, `stopped`, with the
codes of R234. For the two passes, which do `j` positions, the rules say of the stores and the cursor what keeping the
invariant needs; encodePass_next and decodePass_next say more. -/
inductive Effect (s : State) : Instr → State → Status → Bool → Prop
  | stopped {i : Instr} {c : Status} (hcode : c ∈ possibleCodes i) : Effect s i s c false
  | nop : Effect s .nop s .ok false
  | clrerr : Effect s .clrerr { s with errs := 0 } .ok false
  | bsClear : Effect s .bsClear { s with stream := [], rpos := 0 } .ok false
  | bsRewind : Effect s .bsRewind { s with rpos := 0 } .ok false
  | bsWbit {bit : Bool} (hroom : s.roomFor 1 = true) : Effect s (.bsWbit bit) (s.append [bit]) .ok false
  | bsWbits {n v : Nat} (hgroup : n ≤ 16) (hroom : s.roomFor n = true) :
    Effect s (.bsWbits n v) (s.append (putBits n (groupValue n v))) .ok false
  | bsRbit {t : Bool} {rest : List Bool} (hread : getBit s.unread = some (t, rest))
    (hfit : valuesFit s.params [(t.toNat : Int)] = true) :
    Effect s .bsRbit { s.consumeTo rest with result := (t.toNat : Int) } .ok false
  | bsRbits {n y : Nat} {rest : List Bool} (hgroup : n ≤ 16) (hread : getBits n s.unread = some (y, rest))
    (hfit : valuesFit s.params [(y : Int)] = true) :
    Effect s (.bsRbits n) { s.consumeTo rest with result := (y : Int) } .ok false
  | bsRbitsCut {n : Nat} (hgroup : n ≤ 16) (hcut : getBits n s.unread = none) :
    Effect s (.bsRbits n) (s.consumeTo []) .endOfStream false
  | bsFlush (hroom : s.roomFor (padLength s.slen) = true) :
    Effect s .bsFlush (s.append (putBits (padLength s.slen) 0)) .ok false
  | bsFlushFull (hfull : ¬ s.roomFor (padLength s.slen) = true) : Effect s .bsFlush s .streamFull false
  | bsTrunc {n : Nat} (hlen : n ≤ s.slen) :
    Effect s (.bsTrunc n) { s with stream := s.stream.take n, rpos := min s.rpos n } .ok false
  | rcSetm {m : Nat} (hm : 1 ≤ m) :
    Effect s (.rcSetm m) { s with m := m, b := clog2 m, u := 2 ^ clog2 m - m } .ok false
  | rcEnc {v : Int} (hm : 1 ≤ s.m) (hfit : valuesFit s.params (symbolValues s.rice v) = true)
    (hroom : s.roomFor (symLen s.rice v) = true) : Effect s (.rcEnc v) (s.append (symbolBits s.rice v)) .ok false
  | rcDec {v : Int} {rest : List Bool} (hm : 1 ≤ s.m) (hread : takeSymbol s.rice s.unread = .value v rest)
    (hfit : valuesFit s.params (symbolValues s.rice v) = true) :
    Effect s .rcDec { s.consumeTo rest with result := v } .ok false
  | rcDecCut (hm : 1 ≤ s.m) (hcut : takeSymbol s.rice s.unread = .incomplete) :
    Effect s .rcDec (s.consumeTo []) .incompleteStream true
  | prPred {row col : Nat} (hfit : valuesFit s.params (s.predictValues row col) = true) :
    Effect s (.prPred row col) { s with result := s.predict row col } .ok false
  | plSetdim {rows cols : Nat} (hcells : rows * cols ≤ s.params.planeCap) :
    Effect s (.plSetdim rows cols) { s with rows := rows, cols := cols } .ok false
  | plEnc {j : Nat} {c : Status} (hm : 1 ≤ s.m)
    (hcode : (c = .ok ∧ j = s.positions) ∨ (c = .streamFull ∧ j < s.positions))
    (hcap : (∀ cap ∈ s.params.streamCap, s.slen ≤ cap) →
      ∀ cap ∈ s.params.streamCap, (s.stream ++ s.symbolsFrom 0 j).length ≤ cap) :
    Effect s .plEnc { s with stream := s.stream ++ s.symbolsFrom 0 j, count := j } c false
  | plDec {j p : Nat} {c : Status} {x : Bool} {q : Memory} (hm : 1 ≤ s.m)
    (hcode : (c = .ok ∧ j = s.positions ∧ x = false) ∨ (c = .incompleteStream ∧ j < s.positions))
    (hwf : Memory.wf s.plane → Memory.wf q) (hcells : ∀ d ∈ q, d.1 < s.positions ∨ d ∈ s.plane)
    (hcursor : s.rpos ≤ s.slen → p ≤ s.slen) :
    Effect s .plDec { s with plane := q, rpos := p, count := j } c x
  | plSeek {addr : Nat} : Effect s (.plSeek addr) { s with paddr := addr } .ok false
  | plPut {sample : Sample} (haddr : s.paddr < s.params.planeCap) :
    Effect s (.plPut sample) { s.writeCell s.paddr sample with paddr := s.paddr + 1 } .ok false
  | plGet (haddr : s.paddr < s.params.planeCap)
    (hfit : valuesFit s.params [((s.cell s.paddr).toNat : Int)] = true) :
    Effect s .plGet { s with result := ((s.cell s.paddr).toNat : Int), paddr := s.paddr + 1 } .ok false

/-- If `a` is a next state, it is the completion of an effect of `i` in `s`. -/
def Shows (s : State) (i : Instr) (a : Answer) : Prop :=
  ∀ t, a = .next t → ∃ u c x, Effect s i u c x ∧ t = u.complete c x

section Shows

variable {s : State} {i : Instr} {a b : Answer}

theorem Shows.next {u : State} {c : Status} {x : Bool} (h : Effect s i u c x) : Shows s i (.next (u.complete c x)) :=
  fun _ ht => ⟨u, c, x, h, (Host.Outcome.next.inj ht).symm⟩

/-- A condition by which nothing is done: its code is in the command's row of R234. -/
theorem Shows.raise {c : Status} (h : c ∈ possibleCodes i := by simp [possibleCodes]) : Shows s i (raise c s) :=
  .next (.stopped h)

theorem Shows.ite {p : Prop} [Decidable p] (ha : p → Shows s i a) (hb : ¬ p → Shows s i b) :
    Shows s i (if p then a else b) := by
  split
  · exact ha ‹_›
  · exact hb ‹_›

theorem Shows.values {vs : List Int} (ha : valuesFit s.params vs = true → Shows s i a) :
    Shows s i (withValues s vs a) :=
  fun t ht => ha (withValues_next_iff.1 ht).1 t (withValues_next_iff.1 ht).2

end Shows

theorem geometryLegal_iff {rows cols : Nat} {s : State} :
    geometryLegal rows cols s = true ↔ rows * cols ≤ s.params.planeCap := decide_eq_true_iff

theorem truncLegal_iff {n : Nat} {s : State} : truncLegal n s = true ↔ n ≤ s.slen := decide_eq_true_iff

theorem execBsRbit_shows (s : State) : Shows s .bsRbit (execBsRbit s) := by
  unfold execBsRbit
  split
  next => exact .raise
  next hread => exact .values fun hfit => .next (.bsRbit hread hfit)

theorem execBsRbits_shows (n : Nat) (s : State) : Shows s (.bsRbits n) (execBsRbits n s) := by
  refine .ite (fun hn => ?_) fun _ => .raise
  split
  next hcut => exact .next (.bsRbitsCut (groupLegal_iff.1 hn) hcut)
  next hread => exact .values fun hfit => .next (.bsRbits (groupLegal_iff.1 hn) hread hfit)

theorem execRcDec_shows (s : State) : Shows s .rcDec (execRcDec s) := by
  refine .ite (fun hm => ?_) fun _ => .raise
  split
  next => exact .raise
  next hcut => exact .next (.rcDecCut (parameterSet_iff.1 hm) hcut)
  next hread => exact .values fun hfit => .next (.rcDec (parameterSet_iff.1 hm) hread hfit)

/-- COUNT after a pass that starts at 0 and does `j` positions. -/
theorem countAfter_eq (j : Nat) : (if j = 0 then 0 else 0 + j) = j := by
  split <;> omega

theorem execPlEnc_shows (s : State) : Shows s .plEnc (execPlEnc s) := by
  refine .ite (fun hm t h => ?_) fun _ => .raise
  have hcap := encodePass_slen h
  obtain ⟨j, c, hcode, rfl⟩ := encodePass_next h
  refine ⟨_, c, false, .plEnc (j := j) (parameterSet_iff.1 hm) hcode hcap, ?_⟩
  rw [countAfter_eq]
  rfl

theorem execPlDec_shows (s : State) : Shows s .plDec (execPlDec s) := by
  refine .ite (fun hm t h => ?_) fun _ => .raise
  obtain ⟨j, c, x, q, p, hcode, rfl, -, -, hwf, hcells, hcursor⟩ := decodePass_next h
  have hfilled : ∀ d ∈ q, d.1 < s.positions ∨ d ∈ s.plane := fun d hd => by
    rcases hcells d hd with hlt | hmem
    · exact .inl (by omega)
    · exact Memory.mem_zeroFill hmem
  refine ⟨_, c, x, .plDec (j := j) (parameterSet_iff.1 hm) hcode (fun h => hwf (Memory.zeroFill_wf _ h)) hfilled
    (fun h => (hcursor h).1), ?_⟩
  rw [countAfter_eq]

/-- Everything a command can do, arm by arm. -/
theorem exec_shows (i : Instr) (s : State) : Shows s i (exec i s) := by
  cases i with
  | nop => exact .next .nop
  | clrerr => exact .next .clrerr
  | bsClear => exact .next .bsClear
  | bsRewind => exact .next .bsRewind
  | bsWbit bit => exact .ite (fun hroom => .next (.bsWbit hroom)) fun _ => .raise
  | bsWbits n v =>
    exact .ite (fun hn => .ite (fun hroom => .next (.bsWbits (groupLegal_iff.1 hn) hroom)) fun _ => .raise)
      fun _ => .raise
  | bsRbit => exact execBsRbit_shows s
  | bsRbits n => exact execBsRbits_shows n s
  | bsFlush => exact .ite (fun hroom => .next (.bsFlush hroom)) fun hfull => .next (.bsFlushFull hfull)
  | bsTrunc n => exact .ite (fun hn => .next (.bsTrunc (truncLegal_iff.1 hn))) fun _ => .raise
  | rcSetm m => exact .ite (fun hm => .next (.rcSetm (parameterLegal_iff.1 hm))) fun _ => .raise
  | rcEnc v =>
    exact .ite
      (fun hm => .values fun hfit =>
        .ite (fun hroom => .next (.rcEnc (parameterSet_iff.1 hm) hfit hroom)) fun _ => .raise)
      fun _ => .raise
  | rcDec => exact execRcDec_shows s
  | prPred row col => exact .values fun hfit => .next (.prPred hfit)
  | plSetdim rows cols => exact .ite (fun h => .next (.plSetdim (geometryLegal_iff.1 h))) fun _ => .raise
  | plEnc => exact execPlEnc_shows s
  | plDec => exact execPlDec_shows s
  | plSeek addr => exact .next .plSeek
  | plPut sample => exact .ite (fun h => .next (.plPut (paddrLegal_iff.1 h))) fun _ => .raise
  | plGet =>
    exact .ite (fun h => .values fun hfit => .next (.plGet (paddrLegal_iff.1 h) hfit))
      fun _ => .raise

/-- A command that answers a next state has had one of its effects and has then completed. -/
theorem exec_next {i : Instr} {s t : State} (h : exec i s = .next t) :
    ∃ u c x, Effect s i u c x ∧ t = u.complete c x :=
  exec_shows i s t h

/-! What the effects leave unchanged (R42, R28 to R32). -/

section Frame

variable {s u : State} {i : Instr} {c : Status} {x : Bool}

theorem Effect.coder_unchanged (h : Effect s i u c x) :
    u.m = s.m ∧ u.b = s.b ∧ u.u = s.u ∨ ∃ m, i = .rcSetm m := by
  cases h with
  | rcSetm => exact .inr ⟨_, rfl⟩
  | _ => exact .inl ⟨rfl, rfl, rfl⟩

theorem Effect.geometry_unchanged (h : Effect s i u c x) :
    u.rows = s.rows ∧ u.cols = s.cols ∨ ∃ rows cols, i = .plSetdim rows cols := by
  cases h with
  | plSetdim => exact .inr ⟨_, _, rfl⟩
  | _ => exact .inl ⟨rfl, rfl⟩

theorem Effect.paddr_unchanged (h : Effect s i u c x) :
    u.paddr = s.paddr ∨ (∃ a, i = .plSeek a) ∨ (∃ v, i = .plPut v) ∨ i = .plGet := by
  cases h with
  | plSeek => exact .inr (.inl ⟨_, rfl⟩)
  | plPut => exact .inr (.inr (.inl ⟨_, rfl⟩))
  | plGet => exact .inr (.inr (.inr rfl))
  | _ => exact .inl rfl

/-- RESULT is written with the code OK only (R38). -/
theorem Effect.result_unchanged (h : Effect s i u c x) :
    u.result = s.result ∨ c = .ok ∧
      (i = .bsRbit ∨ (∃ n, i = .bsRbits n) ∨ i = .rcDec ∨ (∃ row col, i = .prPred row col) ∨ i = .plGet) := by
  cases h with
  | bsRbit => exact .inr ⟨rfl, .inl rfl⟩
  | bsRbits => exact .inr ⟨rfl, .inr (.inl ⟨_, rfl⟩)⟩
  | rcDec => exact .inr ⟨rfl, .inr (.inr (.inl rfl))⟩
  | prPred => exact .inr ⟨rfl, .inr (.inr (.inr (.inl ⟨_, _, rfl⟩)))⟩
  | plGet => exact .inr ⟨rfl, .inr (.inr (.inr (.inr rfl)))⟩
  | _ => exact .inl rfl

theorem Effect.count_unchanged (h : Effect s i u c x) : u.count = s.count ∨ i = .plEnc ∨ i = .plDec := by
  cases h with
  | plEnc => exact .inr (.inl rfl)
  | plDec => exact .inr (.inr rfl)
  | _ => exact .inl rfl

theorem Effect.plane_unchanged (h : Effect s i u c x) : u.plane = s.plane ∨ (∃ v, i = .plPut v) ∨ i = .plDec := by
  cases h with
  | plPut => exact .inr (.inl ⟨_, rfl⟩)
  | plDec => exact .inr (.inr rfl)
  | _ => exact .inl rfl

theorem Effect.stream_unchanged (h : Effect s i u c x) :
    u.stream = s.stream ∨ i = .bsClear ∨ (∃ bit, i = .bsWbit bit) ∨ (∃ n v, i = .bsWbits n v) ∨ i = .bsFlush ∨
      (∃ n, i = .bsTrunc n) ∨ (∃ v, i = .rcEnc v) ∨ i = .plEnc := by
  cases h with
  | bsClear | bsWbit | bsWbits | bsFlush | bsTrunc | rcEnc | plEnc => simp
  | _ => exact .inl rfl

theorem Effect.rpos_unchanged (h : Effect s i u c x) :
    u.rpos = s.rpos ∨ i = .bsClear ∨ i = .bsRewind ∨ i = .bsRbit ∨ (∃ n, i = .bsRbits n) ∨ (∃ n, i = .bsTrunc n) ∨
      i = .rcDec ∨ i = .plDec := by
  cases h with
  | bsClear | bsRewind | bsRbit | bsRbits | bsRbitsCut | bsTrunc | rcDec | rcDecCut | plDec => simp
  | _ => exact .inl rfl

/-- No command touches the parameters, nor what the model itself keeps (logs 1, 5 and 6). -/
theorem Effect.model_unchanged (h : Effect s i u c x) :
    u.params = s.params ∧ u.resetCount = s.resetCount ∧ u.host = s.host := by
  cases h <;> exact ⟨rfl, rfl, rfl⟩

/-- Before it completes, no command but CLRERR touches the sticky bits (R37, R191). -/
theorem Effect.errs_eq (h : Effect s i u c x) : u.errs = if i = .clrerr then 0#8 else s.errs := by
  cases h with
  | clrerr => rfl
  | stopped hcode => exact (if_neg fun hi => by simp [hi, possibleCodes] at hcode).symm
  | _ => rfl

/-- Only the two decoding commands tell of a symbol cut short (R36). -/
theorem Effect.insideSymbol (h : Effect s i u c x) (hx : x = true) : i = .rcDec ∨ i = .plDec := by
  cases h with
  | rcDecCut => exact .inl rfl
  | plDec => exact .inr rfl
  | _ => exact absurd hx Bool.false_ne_true

end Frame

/-- Settles O17, register by register. -/
theorem onlyTheirWritersChangeRegisters : Obligations.OnlyTheirWritersChangeRegisters := by
  intro i s t h
  obtain ⟨u, c, x, heff, rfl⟩ := exec_next h
  exact ⟨heff.coder_unchanged, heff.geometry_unchanged, heff.paddr_unchanged, heff.result_unchanged,
    heff.count_unchanged, heff.model_unchanged⟩

/-- Settles O18, store by store. -/
theorem onlyTheirWritersChangeStores : Obligations.OnlyTheirWritersChangeStores := by
  intro i s t h
  obtain ⟨u, c, x, heff, rfl⟩ := exec_next h
  exact ⟨heff.plane_unchanged, heff.stream_unchanged, heff.rpos_unchanged⟩

/-! The status a completion writes (R215). -/

/-- The sticky bit of a code: none for OK, bit `c` for a code `c` (R37). -/
def stickyBit (c : Status) : BitVec 8 :=
  if c = .ok then 0#8 else BitVec.ofNat 8 (2 ^ c.code)

theorem errsAfter_eq_or (c : Status) (e : BitVec 8) : errsAfter c e = e ||| stickyBit c := by
  unfold errsAfter stickyBit
  split
  · exact BitVec.or_zero.symm
  · rfl

theorem midsymAfter_iff {c : Status} {x : Bool} : midsymAfter c x = true ↔ c = .incompleteStream ∧ x = true := by
  simp [midsymAfter]

/-- Settles O14: the effect leaves the sticky bits, or clears them, and the completion adds its own. -/
theorem completionWritesStatus : Obligations.CompletionWritesStatus := by
  intro i s t h
  obtain ⟨u, c, x, heff, rfl⟩ := exec_next h
  refine ⟨?_, fun hmid => ?_⟩
  · rw [State.complete_errs, errsAfter_eq_or, heff.errs_eq]
    rfl
  · obtain ⟨hc, hx⟩ := midsymAfter_iff.1 hmid
    exact ⟨hc, heff.insideSymbol hx⟩

end Sys2Proof.Machine
end

section
/-! SUPPORT. The operands of a decoded command fit their fields (R81, R82): the ranges the invariant asks of RC.SETM,
PL.SETDIM and PL.SEEK. -/

namespace Sys2Proof

theorem field_lt (w : Word) (hi lo : Nat) : field w hi lo < 2 ^ (hi + 1 - lo) :=
  Nat.mod_lt _ (Nat.two_pow_pos _)

/-- Two's complement of 24 bits (R11). -/
theorem sext_range {v : Nat} (h : v < 2 ^ 24) : -(2 ^ 23) ≤ sext 24 v ∧ sext 24 v < 2 ^ 23 := by
  unfold sext
  split <;> omega

theorem checked_wf {f : Format} {w : Word} {i j : Instr} (hi : i.wf = true) (h : checked f w i = .command j) :
    j.wf = true := by
  unfold checked at h
  split at h
  · cases h
    exact hi
  · cases h

/-- Every command a word decodes to is well formed, row by row of the decoder. -/
theorem decode_wf {w : Word} {i : Instr} (h : decode w = .command i) : i.wf = true := by
  have h8 : field w 23 16 < 2 ^ 8 := field_lt w 23 16
  have h16 : field w 15 0 < 2 ^ 16 := field_lt w 15 0
  have h24 : field w 23 0 < 2 ^ 24 := field_lt w 23 0
  have hhi : field w 23 12 < 2 ^ 12 := field_lt w 23 12
  have hlo : field w 11 0 < 2 ^ 12 := field_lt w 11 0
  have hsext := sext_range h24
  unfold decode at h
  split at h
  case h_21 => cases h
  all_goals exact checked_wf (by simp only [Instr.wf, Bool.and_eq_true, decide_eq_true_eq, and_self, *]) h

end Sys2Proof
end

section
/-! SUPPORT. The invariant of the command boundary: it holds after every reset, and every effect followed by a
completion keeps each of its parts (R22 to R39). -/

namespace Sys2Proof.Machine

/-! Reset. -/

/-- 0 is in every value domain. -/
theorem fitsDomain_zero (p : Config.Params) : fitsDomain p 0 = true := by
  unfold fitsDomain
  split
  · rfl
  next n _ =>
    have : (0 : Int) < 2 ^ n := by positivity
    simp [this, this.le]

/-- A state with every register 0 and both stores empty (R241) meets the invariant, whatever legal parameters it
carries. -/
theorem inv_of_cleared {p : Config.Params} (hp : ParamsLegal p) (k : Nat) (es : List HostEvent) :
    State.Inv { State.reset with params := p, resetCount := k, host := es } where
  params := hp
  parameter := ⟨Nat.zero_le _, .inl ⟨rfl, rfl, rfl⟩⟩
  geometry := ⟨Nat.zero_le _, Nat.zero_le _, Nat.zero_le _⟩
  plane := ⟨List.Pairwise.nil, fun _ hc => absurd hc List.not_mem_nil, Nat.zero_le _, Nat.zero_le _⟩
  stream := ⟨Nat.zero_le _, fun _ _ => Nat.zero_le _⟩
  status := ⟨fun h => absurd h Bool.false_ne_true, BitVec.getLsbD_zero, BitVec.getLsbD_zero, fun h => absurd rfl h⟩
  result := fitsDomain_zero p

/-- R9's own defaults are legal. -/
theorem paramsLegal_default : ParamsLegal {} :=
  ⟨le_refl _, fun _ h => nomatch h⟩

/-- Settles O10. -/
theorem invariantHoldsAtReset : Obligations.InvariantHoldsAtReset :=
  inv_of_cleared paramsLegal_default 0 []

/-! The parts of the invariant, each under the effects that write its fields. -/

/-- The prediction is among the values PR.PRED checks. -/
theorem State.predict_mem_predictValues (s : State) (row col : Nat) :
    s.predict row col ∈ s.predictValues row col := by
  unfold State.predictValues State.predict
  dsimp only
  split <;> simp

section Effects

variable {s u : State} {i : Instr} {c : Status} {x : Bool}

theorem Effect.parameterInv (h : Effect s i u c x) (hwf : i.wf = true) (hs : ParameterInv s) : ParameterInv u := by
  cases h with
  | rcSetm hm =>
    have hlt := of_decide_eq_true hwf
    exact ⟨Nat.le_pred_of_lt hlt, .inr ⟨hm, rfl⟩⟩
  | _ => exact hs

theorem Effect.geometryInv (h : Effect s i u c x) (hwf : i.wf = true) (hs : GeometryInv s) : GeometryInv u := by
  cases h with
  | plSetdim hcells =>
    obtain ⟨hrows, hcols⟩ := Bool.and_eq_true_iff.1 hwf
    exact ⟨Nat.le_pred_of_lt (of_decide_eq_true hrows), Nat.le_pred_of_lt (of_decide_eq_true hcols), hcells⟩
  | _ => exact hs

theorem Effect.planeInv (h : Effect s i u c x) (hwf : i.wf = true) (hcap : s.params.planeCap ≤ Config.planeCapMax)
    (hpos : s.positions ≤ s.params.planeCap) (hs : PlaneInv s) : PlaneInv u := by
  obtain ⟨hsorted, hbelow, hpaddr, hcount⟩ := hs
  cases h with
  | @plEnc j _ _ hcode =>
    have hdone : j ≤ s.positions := by omega
    exact ⟨hsorted, hbelow, hpaddr, hdone.trans hpos⟩
  | @plDec j _ _ _ _ _ hcode hkeep hcells =>
    have hdone : j ≤ s.positions := by omega
    refine ⟨hkeep hsorted, fun d hd => ?_, hpaddr, hdone.trans hpos⟩
    exact (hcells d hd).elim (fun hlt => hlt.trans_le hpos) (hbelow d)
  | plSeek => exact ⟨hsorted, hbelow, (of_decide_eq_true hwf).le, hcount⟩
  | plPut haddr =>
    refine ⟨Memory.write_wf hsorted _ _, fun d hd => ?_, haddr.trans_le hcap, hcount⟩
    rcases Memory.mem_write hd with rfl | hd
    · exact haddr
    · exact hbelow d hd
  | plGet haddr => exact ⟨hsorted, hbelow, haddr.trans_le hcap, hcount⟩
  | _ => exact ⟨hsorted, hbelow, hpaddr, hcount⟩

/-- A write for which there is room. -/
theorem StreamInv.append {bits : List Bool} (hs : StreamInv s) (hroom : s.roomFor bits.length = true) :
    StreamInv (s.append bits) := by
  rw [StreamInv, State.slen_append]
  exact ⟨hs.1.trans (Nat.le_add_right _ _), State.roomFor_iff.1 hroom⟩

/-- Any reads. -/
theorem StreamInv.consumeTo (hs : StreamInv s) (rest : List Bool) : StreamInv (s.consumeTo rest) :=
  ⟨State.consumeTo_rpos_le hs.1 rest, hs.2⟩

theorem Effect.streamInv (h : Effect s i u c x) (hs : StreamInv s) : StreamInv u := by
  cases h with
  | bsClear => exact ⟨le_refl 0, fun _ _ => Nat.zero_le _⟩
  | bsRewind => exact ⟨Nat.zero_le _, hs.2⟩
  | bsWbit hroom => exact hs.append hroom
  | bsWbits _ hroom => exact hs.append (by rwa [putBits_length])
  | bsFlush hroom => exact hs.append (by rwa [putBits_length])
  | rcEnc _ _ hroom => exact hs.append (by rwa [symbolBits_length])
  | bsRbit => exact hs.consumeTo _
  | bsRbits => exact hs.consumeTo _
  | bsRbitsCut => exact hs.consumeTo []
  | rcDec => exact hs.consumeTo _
  | rcDecCut => exact hs.consumeTo []
  | @bsTrunc n hlen =>
    have htake : (s.stream.take n).length = n := List.length_take_of_le hlen
    exact ⟨(Nat.min_le_right _ _).trans htake.ge, fun cap hcap => htake.le.trans (hlen.trans (hs.2 cap hcap))⟩
  | plEnc _ _ hcap =>
    exact ⟨hs.1.trans (by simp [State.slen]), hcap hs.2⟩
  | plDec _ _ _ _ hcursor => exact ⟨hcursor hs.1, hs.2⟩
  | _ => exact hs

/-- Each RESULT a command gives was among the values it checked (U6). -/
theorem Effect.resultInv (h : Effect s i u c x) (hs : ResultInv s) : ResultInv u := by
  cases h with
  | bsRbit _ hfit => exact List.all_eq_true.1 hfit _ List.mem_cons_self
  | bsRbits _ _ hfit => exact List.all_eq_true.1 hfit _ List.mem_cons_self
  | rcDec _ _ hfit => exact List.all_eq_true.1 hfit _ List.mem_cons_self
  | @prPred row col hfit => exact List.all_eq_true.1 hfit _ (s.predict_mem_predictValues row col)
  | plGet _ hfit => exact List.all_eq_true.1 hfit _ List.mem_cons_self
  | _ => exact hs

/-- What a completion writes meets R36 and R37, whatever LAST and MIDSYM were. -/
theorem StatusInv.complete (h0 : u.errs.getLsbD 0 = false) (h7 : u.errs.getLsbD 7 = false) :
    StatusInv (u.complete c x) := by
  obtain ⟨hkeep0, hkeep7⟩ := errsAfter_reserved c u.errs
  exact ⟨fun hmid => (midsymAfter_iff.1 hmid).1, hkeep0.trans h0, hkeep7.trans h7, fun hc => errsAfter_sets hc u.errs⟩

theorem Effect.statusInv (h : Effect s i u c x) (hs : StatusInv s) : StatusInv (u.complete c x) := by
  obtain ⟨-, h0, h7, -⟩ := hs
  refine StatusInv.complete ?_ ?_ <;> rw [h.errs_eq] <;> split
  · rfl
  · exact h0
  · rfl
  · exact h7

end Effects

/-- A command keeps the invariant. -/
theorem Effect.complete_inv {s u : State} {i : Instr} {c : Status} {x : Bool} (h : Effect s i u c x)
    (hwf : i.wf = true) (hs : s.Inv) : (u.complete c x).Inv := by
  obtain ⟨hparams, -, -⟩ := h.model_unchanged
  obtain ⟨hcap, -⟩ := hs.params
  obtain ⟨-, -, hcells⟩ := hs.geometry
  exact
    { params := hparams ▸ hs.params
      parameter := h.parameterInv hwf hs.parameter
      geometry := h.geometryInv hwf hs.geometry
      plane := h.planeInv hwf hcap hcells hs.plane
      stream := h.streamInv hs.stream
      status := h.statusInv hs.status
      result := h.resultInv hs.result }

/-- The host's list is no part of the invariant. -/
theorem State.Inv.taken {s : State} (hs : s.Inv) : s.taken.Inv :=
  ⟨hs.params, hs.parameter, hs.geometry, hs.plane, hs.stream, hs.status, hs.result⟩

/-- An illegal word writes the status alone (R85). -/
theorem State.Inv.illegalWord {s t : State} (hs : s.Inv) (h : illegalWord s = .next t) : t.Inv := by
  cases h
  obtain ⟨-, h0, h7, -⟩ := hs.status
  exact ⟨hs.params, hs.parameter, hs.geometry, hs.plane, hs.stream, .complete h0 h7, hs.result⟩

/-- Every one of the 2^32 words keeps the invariant. -/
theorem State.Inv.runWord {s t : State} {w : Word} (hs : s.Inv) (h : runWord w s = .next t) : t.Inv := by
  unfold Machine.runWord at h
  split at h
  next i hdecode =>
    obtain ⟨u, c, x, heff, rfl⟩ := exec_next h
    exact heff.complete_inv (decode_wf hdecode) hs
  next => exact hs.illegalWord h

/-- Settles O11: waiting changes nothing, a reset clears everything, and a word keeps every part of the invariant. -/
theorem invariantKeptByEveryStep : Obligations.InvariantKeptByEveryStep := by
  intro s t hs h
  unfold step at h
  split at h
  next =>
    cases h
    exact hs
  next =>
    cases h
    exact inv_of_cleared hs.params (s.resetCount + 1) s.host.tail
  next => exact hs.taken.runWord h

end Sys2Proof.Machine
end

section
/-! SUPPORT. The register read port: the fields of STATUS, and what each register number reads (R34, R42, R193). -/

namespace Sys2Proof.Machine

theorem Status.code_le (c : Status) : c.code ≤ 6 := by
  cases c <;> decide

/-- STATUS as a number: its three fields at their places, nothing lost to the width (R34). -/
theorem statusWord_toNat (s : State) :
    (statusWord s).toNat = s.last.code + 2 ^ 4 * s.midsym.toNat + 2 ^ 8 * s.errs.toNat := by
  have := s.last.code_le
  have := s.midsym.toNat_lt
  have := s.errs.isLt
  rw [statusWord, BitVec.toNat_ofNat, Nat.mod_eq_of_lt (by omega)]

/-- The fields of STATUS, the reserved bits between them included. -/
theorem field_statusWord (s : State) :
    field (statusWord s) 3 0 = s.last.code ∧ field (statusWord s) 4 4 = s.midsym.toNat ∧
      field (statusWord s) 7 5 = 0 ∧ field (statusWord s) 15 8 = s.errs.toNat ∧ field (statusWord s) 31 16 = 0 := by
  have := s.last.code_le
  have := s.midsym.toNat_lt
  have := s.errs.isLt
  simp only [field, statusWord_toNat]
  omega

/-- No register stands at the numbers from 11 on (R193, log 12). -/
theorem regRead_of_ge {n : Nat} (h : 11 ≤ n) (s : State) : regRead n s = 0 := by
  obtain ⟨k, rfl⟩ := Nat.exists_eq_add_of_le' h
  rfl

/-- Settles O20. -/
theorem registerReadPort : Obligations.RegisterReadPort := by
  intro s
  obtain ⟨hlast, hmidsym, hlow, herrs, hhigh⟩ := field_statusWord s
  exact ⟨rfl, hlast, hmidsym, hlow, herrs, hhigh, rfl, rfl, rfl, rfl, rfl, rfl, rfl, rfl, rfl, rfl,
    fun n h => regRead_of_ge h s⟩

/-- Settles O5: each of the eleven registers is 0 in the reset state, and the numbers above them read 0 in any. -/
theorem resetStateOfTheCore : Obligations.ResetStateOfTheCore := by
  refine ⟨fun n => ?_, rfl, rfl, rfl, rfl, fun a => Memory.read?_nil a⟩
  rcases Nat.lt_or_ge n 11 with h | h
  · interval_cases n <;> rfl
  · exact regRead_of_ge h State.reset

end Sys2Proof.Machine
end

section
/-! SUPPORT. Two runs of one command from states that differ in STATUS, RESULT and COUNT alone go side by side: the
checks ask the same, and each operation keeps the two states equal in all else (R35 to R39, R250). -/

namespace Sys2Proof.Machine

/-- `s` with other contents in the registers that only report: STATUS, RESULT and COUNT. -/
abbrev State.reporting (s : State) (l : Status) (x : Bool) (e : BitVec 8) (r : Int) (c : Nat) : State :=
  { s with last := l, midsym := x, errs := e, result := r, count := c }

/-- `u` and `u'` are what one command has made so far of `s` and `s'`: equal but for the reporting registers, RESULT
and COUNT each written alike in both or in neither, the sticky bits in neither. -/
inductive Twin (s s' : State) : State → State → Prop
  | mk {u : State} (l : Status) (x : Bool) (r : Int) (n : Nat) (herrs : u.errs = s.errs)
    (hresult : r = u.result ∨ r = s'.result ∧ u.result = s.result)
    (hcount : n = u.count ∨ n = s'.count ∧ u.count = s.count) : Twin s s' u (u.reporting l x s'.errs r n)

/-- The two answers are of one kind: both complete alike, or both are refused by one name. -/
inductive SideBySide (s s' : State) : Answer → Answer → Prop
  | complete {u u' : State} {c : Status} {x : Bool} (h : Twin s s' u u') :
    SideBySide s s' (.next (u.complete c x)) (.next (u'.complete c x))
  | refused (r : Refusal) : SideBySide s s' (.refused r) (.refused r)

section SideBySide

variable {s s' : State} {a b a' b' : Answer}

theorem SideBySide.ite {p : Prop} [Decidable p] (ha : SideBySide s s' a a') (hb : SideBySide s s' b b') :
    SideBySide s s' (if p then a else b) (if p then a' else b') := by
  split
  · exact ha
  · exact hb

theorem SideBySide.values {u u' : State} {vs : List Int} (hp : u'.params = u.params) (ha : SideBySide s s' a a') :
    SideBySide s s' (withValues u vs a) (withValues u' vs a') := by
  unfold withValues
  rw [hp]
  exact .ite ha (.refused _)

theorem encodePass_sideBySide {n k : Nat} {u u' : State} (h : Twin s s' u u') :
    SideBySide s s' (encodePass n k u) (encodePass n k u') := by
  induction n generalizing k u u' with
  | zero => exact .complete h
  | succ n ih =>
    obtain ⟨l, x, r, m, herrs, hresult, hcount⟩ := h
    exact .values rfl (.ite (ih (.mk l x r _ herrs hresult (.inl rfl))) (.complete (.mk l x r m herrs hresult hcount)))

theorem decodePass_sideBySide {n k : Nat} {u u' : State} (h : Twin s s' u u') :
    SideBySide s s' (decodePass n k u) (decodePass n k u') := by
  induction n generalizing k u u' with
  | zero => exact .complete h
  | succ n ih =>
    obtain ⟨l, x, r, m, herrs, hresult, hcount⟩ := h
    have hread : takeSymbol (u.reporting l x s'.errs r m).rice (u.reporting l x s'.errs r m).unread =
        takeSymbol u.rice u.unread := rfl
    rw [decodePass, decodePass, hread]
    cases takeSymbol u.rice u.unread with
    | endOfStream => exact .complete (.mk l x r m herrs hresult hcount)
    | incomplete => exact .complete (.mk l x r m herrs hresult hcount)
    | value d rest => exact .values rfl (ih (.mk l x r _ herrs hresult (.inl rfl)))

end SideBySide

/-! The commands. -/

section Commands

variable {s u : State} {l : Status} {x : Bool} {e : BitVec 8} {r : Int} {n : Nat}

/-- An operation on both states that writes none of the reporting registers. -/
theorem Twin.unwritten (herrs : u.errs = s.errs) (hresult : u.result = s.result) (hcount : u.count = s.count) :
    Twin s (s.reporting l x e r n) u (u.reporting l x e r n) :=
  .mk l x r n herrs (.inr ⟨rfl, hresult⟩) (.inr ⟨rfl, hcount⟩)

/-- An operation on both states that writes RESULT. -/
theorem Twin.resultWritten (herrs : u.errs = s.errs) (hcount : u.count = s.count) :
    Twin s (s.reporting l x e r n) u (u.reporting l x e u.result n) :=
  .mk l x _ n herrs (.inl rfl) (.inr ⟨rfl, hcount⟩)

/-- The start of a pass, which writes COUNT. -/
theorem Twin.countWritten (herrs : u.errs = s.errs) (hresult : u.result = s.result) :
    Twin s (s.reporting l x e r n) u (u.reporting l x e r u.count) :=
  .mk l x r _ herrs (.inr ⟨rfl, hresult⟩) (.inl rfl)

theorem execBsRbit_sideBySide :
    SideBySide s (s.reporting l x e r n) (execBsRbit s) (execBsRbit (s.reporting l x e r n)) := by
  have hunread : (s.reporting l x e r n).unread = s.unread := rfl
  rw [execBsRbit, execBsRbit, hunread]
  rcases getBit s.unread with _ | ⟨t, rest⟩
  · exact .complete (.unwritten rfl rfl rfl)
  · exact .values rfl (.complete (.resultWritten rfl rfl))

theorem execBsRbits_sideBySide (k : Nat) :
    SideBySide s (s.reporting l x e r n) (execBsRbits k s) (execBsRbits k (s.reporting l x e r n)) := by
  have hunread : (s.reporting l x e r n).unread = s.unread := rfl
  rw [execBsRbits, execBsRbits, hunread]
  refine .ite ?_ (.complete (.unwritten rfl rfl rfl))
  rcases getBits k s.unread with _ | ⟨y, rest⟩
  · exact .complete (.unwritten rfl rfl rfl)
  · exact .values rfl (.complete (.resultWritten rfl rfl))

theorem execRcDec_sideBySide :
    SideBySide s (s.reporting l x e r n) (execRcDec s) (execRcDec (s.reporting l x e r n)) := by
  have hread : takeSymbol (s.reporting l x e r n).rice (s.reporting l x e r n).unread =
      takeSymbol s.rice s.unread := rfl
  rw [execRcDec, execRcDec, hread]
  refine .ite ?_ (.complete (.unwritten rfl rfl rfl))
  cases takeSymbol s.rice s.unread with
  | endOfStream => exact .complete (.unwritten rfl rfl rfl)
  | incomplete => exact .complete (.unwritten rfl rfl rfl)
  | value v rest => exact .values rfl (.complete (.resultWritten rfl rfl))

/-- Every command but CLRERR, which alone writes the sticky bits itself, goes side by side from two states that differ
in the reporting registers. -/
theorem exec_sideBySide {i : Instr} (hi : i ≠ .clrerr) :
    SideBySide s (s.reporting l x e r n) (exec i s) (exec i (s.reporting l x e r n)) := by
  have hstop : ∀ c, SideBySide s (s.reporting l x e r n) (raise c s) (raise c (s.reporting l x e r n)) :=
    fun c => .complete (.unwritten rfl rfl rfl)
  cases i with
  | nop => exact .complete (.unwritten rfl rfl rfl)
  | clrerr => exact absurd rfl hi
  | bsClear => exact .complete (.unwritten rfl rfl rfl)
  | bsRewind => exact .complete (.unwritten rfl rfl rfl)
  | bsWbit bit => exact .ite (.complete (.unwritten rfl rfl rfl)) (hstop _)
  | bsWbits k v => exact .ite (.ite (.complete (.unwritten rfl rfl rfl)) (hstop _)) (hstop _)
  | bsRbit => exact execBsRbit_sideBySide
  | bsRbits k => exact execBsRbits_sideBySide k
  | bsFlush => exact .ite (.complete (.unwritten rfl rfl rfl)) (hstop _)
  | bsTrunc k => exact .ite (.complete (.unwritten rfl rfl rfl)) (hstop _)
  | rcSetm m => exact .ite (.complete (.unwritten rfl rfl rfl)) (hstop _)
  | rcEnc v => exact .ite (.values rfl (.ite (.complete (.unwritten rfl rfl rfl)) (hstop _))) (hstop _)
  | rcDec => exact execRcDec_sideBySide
  | prPred row col => exact .values rfl (.complete (.resultWritten rfl rfl))
  | plSetdim rows cols => exact .ite (.complete (.unwritten rfl rfl rfl)) (hstop _)
  | plEnc => exact .ite (encodePass_sideBySide (.countWritten rfl rfl)) (hstop _)
  | plDec => exact .ite (decodePass_sideBySide (.countWritten rfl rfl)) (hstop _)
  | plSeek addr => exact .complete (.unwritten rfl rfl rfl)
  | plPut sample => exact .ite (.complete (.unwritten rfl rfl rfl)) (hstop _)
  | plGet => exact .ite (.values rfl (.complete (.resultWritten rfl rfl))) (hstop _)

end Commands

/-- What the second of two runs side by side answers when the first completes. -/
theorem SideBySide.next_left {s s' t : State} {a a' : Answer} (h : SideBySide s s' a a') (ha : a = .next t) :
    ∃ t', a' = .next t' ∧ t' = { t with errs := t'.errs, result := t'.result, count := t'.count } ∧
      (t'.result = t.result ∨ t'.result = s'.result ∧ t.result = s.result) ∧
      (t'.count = t.count ∨ t'.count = s'.count ∧ t.count = s.count) ∧
      t.errs = s.errs ||| stickyBit t.last ∧ t'.errs = s'.errs ||| stickyBit t.last := by
  cases h with
  | refused => cases ha
  | @complete u _ c _ htwin =>
    cases ha
    obtain ⟨l, x, r, m, herrs, hresult, hcount⟩ := htwin
    exact ⟨_, rfl, rfl, hresult, hcount, herrs ▸ errsAfter_eq_or c u.errs, errsAfter_eq_or c s'.errs⟩

/-- Settles O19: CLRERR clears the sticky bits in both runs, every other command goes side by side. -/
theorem statusResultAndCountNeverSteer : Obligations.StatusResultAndCountNeverSteer := by
  intro i s t l x e r n h
  by_cases hi : i = .clrerr
  · subst hi
    cases h
    exact ⟨_, rfl, rfl, .inr ⟨rfl, rfl⟩, .inr ⟨rfl, rfl⟩, .inl ⟨rfl, rfl, rfl⟩⟩
  · obtain ⟨t', hnext, hrest, hresult, hcount, herrs⟩ := (exec_sideBySide hi).next_left h
    exact ⟨t', hnext, hrest, hresult, hcount, .inr herrs⟩

end Sys2Proof.Machine
end

section
/-! SUPPORT. The commands that move bits, by the case they are in: written with room or not at all, read whole or cut
short by the end of the stream (R112 to R116, R222); and PR.PRED (R166). -/

namespace Sys2Proof.Machine

/-! Completions, with the fields they write (R215, R216). -/

theorem succeed_writes (s : State) : succeed s = .next { s with last := .ok, midsym := false } := rfl

theorem raise_streamFull (s : State) :
    raise .streamFull s = .next { s with last := .streamFull, midsym := false, errs := s.errs ||| 0x40#8 } := rfl

theorem raise_endOfStream (s : State) :
    raise .endOfStream s = .next { s with last := .endOfStream, midsym := false, errs := s.errs ||| 0x10#8 } := rfl

/-! Writes. -/

theorem State.not_roomFor {s : State} {cap n : Nat} (hcap : s.params.streamCap = some cap)
    (hfull : cap < s.slen + n) : ¬ s.roomFor n = true :=
  fun hroom => absurd (State.roomFor_iff.1 hroom cap hcap) (not_le.2 hfull)

theorem execBsWbit_of_full {s : State} (hfull : ¬ s.roomFor 1 = true) (bit : Bool) :
    execBsWbit bit s = raise .streamFull s :=
  if_neg hfull

theorem execBsWbits_of_full {s : State} {n : Nat} (hn : n ≤ 16) (hfull : ¬ s.roomFor n = true) (v : Nat) :
    execBsWbits n v s = raise .streamFull s :=
  (if_pos (groupLegal_iff.2 hn)).trans (if_neg hfull)

theorem execRcEnc_of_full {s : State} {v : Int} (hm : 1 ≤ s.m)
    (hfit : valuesFit s.params (symbolValues s.rice v) = true) (hfull : ¬ s.roomFor (symLen s.rice v) = true) :
    execRcEnc v s = raise .streamFull s := by
  rw [execRcEnc, if_pos (parameterSet_iff.2 hm), withValues_of_fit hfit, if_neg hfull]

/-- Settles O23: each of the three writers asks for the room of all its bits before it writes the first. -/
theorem streamFullWritesNothing : Obligations.StreamFullWritesNothing := by
  intro s cap hcap stopped
  have hraise : raise .streamFull s = .next stopped := raise_streamFull s
  refine ⟨fun bit hfull => ?_, fun n v hn hfull => ?_, fun v hm hfit hfull => ?_⟩
  · exact (execBsWbit_of_full (State.not_roomFor hcap hfull) bit).trans hraise
  · exact (execBsWbits_of_full hn (State.not_roomFor hcap hfull) v).trans hraise
  · rw [symbolBits_length] at hfull
    exact (execRcEnc_of_full hm hfit (State.not_roomFor hcap hfull)).trans hraise

theorem execBsWbit_of_room {s : State} (hroom : s.roomFor 1 = true) (bit : Bool) :
    execBsWbit bit s = succeed (s.append [bit]) :=
  if_pos hroom

theorem execBsWbits_of_room {s : State} {n : Nat} (hn : n ≤ 16) (hroom : s.roomFor n = true) (v : Nat) :
    execBsWbits n v s = succeed (s.append (putBits n v)) := by
  rw [execBsWbits, if_pos (groupLegal_iff.2 hn), if_pos hroom, groupValue, putBits_mod]

/-- Settles O26: PutBits writes the bits of `v` from number `n − 1` down (R57). -/
theorem writesAppendTheirBits : Obligations.WritesAppendTheirBits := by
  intro s
  refine ⟨fun bit hroom => ?_, fun n v hn hroom => ?_⟩
  · exact (execBsWbit_of_room (State.roomFor_iff.2 hroom) bit).trans (succeed_writes _)
  · rw [← putBits_eq_map]
    exact (execBsWbits_of_room hn (State.roomFor_iff.2 hroom) v).trans (succeed_writes _)

theorem padLength_lt (n : Nat) : padLength n < 8 :=
  Nat.mod_lt _ (by decide)

theorem add_padLength_mod (n : Nat) : (n + padLength n) % 8 = 0 := by
  unfold padLength
  omega

/-- The padding ends at the next multiple of 8, which no capacity that is itself one cuts off (R116). -/
theorem add_padLength_le {n cap : Nat} (hn : n ≤ cap) (hcap : cap % 8 = 0) : n + padLength n ≤ cap := by
  unfold padLength
  omega

theorem execBsFlush_of_room {s : State} (hroom : s.roomFor (padLength s.slen) = true) :
    execBsFlush s = succeed (s.append (List.replicate (padLength s.slen) false)) := by
  rw [execBsFlush, if_pos hroom, putBits_of_zero]

/-- Settles O27. -/
theorem flushPadsToAWholeByte : Obligations.FlushPadsToAWholeByte := by
  rintro s ⟨-, hbytes⟩ ⟨-, hslen⟩
  have hroom : s.roomFor (padLength s.slen) = true :=
    State.roomFor_iff.2 fun cap hcap => add_padLength_le (hslen cap hcap) (hbytes cap hcap)
  exact ⟨padLength s.slen, padLength_lt _, add_padLength_mod _,
    (execBsFlush_of_room hroom).trans (succeed_writes _)⟩

/-! Reads. -/

/-- Bit `i` of those left to read. -/
theorem State.unread_getElem? (s : State) (i : Nat) : s.unread[i]? = s.stream[s.rpos + i]? :=
  List.getElem?_drop

theorem State.unread_eq_cons {s : State} {bit : Bool} (h : s.stream[s.rpos]? = some bit) :
    ∃ rest, s.unread = bit :: rest := by
  have hhead : s.unread.head? = some bit := by rw [List.head?_eq_getElem?, State.unread_getElem?]; exact h
  exact ⟨s.unread.tail, List.eq_cons_of_mem_head? hhead⟩

/-- While `n` bits are left, the next `n` are the group of one value below `2^n` (R59). -/
theorem State.exists_group {s : State} {n : Nat} (h : s.rpos + n ≤ s.slen) :
    ∃ x rest, x < 2 ^ n ∧ s.unread = putBits n x ++ rest := by
  cases hread : getBits n s.unread with
  | none =>
    have hcut := getBits_eq_none_iff.1 hread
    rw [State.unread_length] at hcut
    omega
  | some read => exact ⟨read.1, read.2, getBits_eq_some_iff.1 hread⟩

theorem putBits_getElem? {n i : Nat} (hi : i < n) (x : Nat) : (putBits n x)[i]? = some (x.testBit (n - 1 - i)) := by
  simp [putBits_eq_map, hi]

/-- The stream bits of a group at the cursor. -/
theorem State.stream_of_group {s : State} {n x i : Nat} {rest : List Bool} (h : s.unread = putBits n x ++ rest)
    (hi : i < n) : s.stream[s.rpos + i]? = some (x.testBit (n - 1 - i)) := by
  rw [← State.unread_getElem?, h, List.getElem?_append_left (by rwa [putBits_length]), putBits_getElem? hi]

theorem execBsRbit_of_cons {s : State} {bit : Bool} {rest : List Bool} (h : s.unread = bit :: rest)
    (hfit : fitsDomain s.params bit.toNat = true) :
    execBsRbit s = .next { s with rpos := s.rpos + 1, result := bit.toNat, last := .ok, midsym := false } := by
  have hrpos : (s.consumeTo rest).rpos = s.rpos + 1 := State.consumeTo_rpos_of_append (pre := [bit]) h
  have hvalues : valuesFit s.params [(bit.toNat : Int)] = true := by rw [valuesFit_cons, hfit]; rfl
  rw [execBsRbit, h, getBit_cons, ← hrpos]
  exact withValues_of_fit hvalues _

theorem execBsRbits_of_group {s : State} {n x : Nat} {rest : List Bool} (hn : n ≤ 16) (hx : x < 2 ^ n)
    (h : s.unread = putBits n x ++ rest) (hfit : fitsDomain s.params x = true) :
    execBsRbits n s = .next { s with rpos := s.rpos + n, result := x, last := .ok, midsym := false } := by
  have hrpos : (s.consumeTo rest).rpos = s.rpos + n :=
    (State.consumeTo_rpos_of_append h).trans (by rw [putBits_length])
  have hvalues : valuesFit s.params [(x : Int)] = true := by rw [valuesFit_cons, hfit]; rfl
  rw [execBsRbits, if_pos (groupLegal_iff.2 hn), getBits_eq_some_iff.2 ⟨hx, h⟩, ← hrpos]
  exact withValues_of_fit hvalues _

/-- Settles O28: the next bits are a group, and the group's value is what the read gives. -/
theorem readsReturnTheNextBits : Obligations.ReadsReturnTheNextBits := by
  intro s
  refine ⟨fun bit hbit hfit => ?_, fun n hn hleft => ?_⟩
  · obtain ⟨rest, h⟩ := State.unread_eq_cons hbit
    exact execBsRbit_of_cons h hfit
  · obtain ⟨x, rest, hx, h⟩ := State.exists_group hleft
    exact ⟨x, hx, fun i hi => State.stream_of_group h hi, execBsRbits_of_group hn hx h⟩

theorem execBsRbit_of_nil {s : State} (h : s.unread = []) : execBsRbit s = raise .endOfStream s := by
  rw [execBsRbit, h, getBit_nil]

theorem execBsRbits_of_cut {s : State} {n : Nat} (hn : n ≤ 16) (h : s.unread.length < n) :
    execBsRbits n s = raise .endOfStream (s.consumeTo []) := by
  rw [execBsRbits, if_pos (groupLegal_iff.2 hn), getBits_eq_none_iff.2 h]

/-- Settles O29: at the end nothing is left to read, and a cut group takes the cursor there. -/
theorem readsAtTheEndOfTheStream : Obligations.ReadsAtTheEndOfTheStream := by
  intro s hle
  refine ⟨fun hend => ?_, fun n hn hcut => ?_⟩
  · have hnil : s.unread = [] := List.length_eq_zero_iff.1 (by rw [State.unread_length]; omega)
    exact (execBsRbit_of_nil hnil).trans (raise_endOfStream s)
  · have hfew : s.unread.length < n := by rw [State.unread_length]; omega
    rw [← State.consumeTo_nil_rpos hle]
    exact (execBsRbits_of_cut hn hfew).trans (raise_endOfStream _)

/-- The low `n` bits of a number, weighed from the most significant down, add up to it modulo `2^n`. -/
theorem sum_testBit_mul_two_pow (n x : Nat) :
    ((List.range n).map fun i => (x.testBit (n - 1 - i)).toNat * 2 ^ (n - 1 - i)).sum = x % 2 ^ n := by
  induction n with
  | zero => simp [Nat.mod_one]
  | succ n ih =>
    have hshift : ∀ i, n + 1 - 1 - (i + 1) = n - 1 - i := fun i => by omega
    rw [List.range_succ_eq_map, List.map_cons, List.map_map, List.sum_cons, Nat.mod_pow_succ, ← Nat.toNat_testBit,
      ← ih]
    simp only [Function.comp_def, Nat.succ_eq_add_one, hshift]
    rw [Nat.add_sub_cancel, Nat.sub_zero]
    ring

/-- The byte view of eight bits that are the group of `x` (R57, R60). -/
theorem byteView_of_group {s : State} {j x : Nat} {rest : List Bool} (hx : x < 2 ^ 8) (hj : s.rpos = 8 * j)
    (h : s.unread = putBits 8 x ++ rest) : byteView s j = x := by
  have hbits : ∀ i ∈ List.range 8,
      streamBit s (8 * j + i) * 2 ^ (7 - i) = (x.testBit (8 - 1 - i)).toNat * 2 ^ (8 - 1 - i) := fun i hi => by
    rw [streamBit, ← hj, State.stream_of_group h (List.mem_range.1 hi), Option.getD_some]
  rw [byteView, List.map_congr_left hbits, sum_testBit_mul_two_pow, Nat.mod_eq_of_lt hx]

theorem fitsDomain_default {p : Config.Params} (h : p.valBits = none) (v : Int) : fitsDomain p v = true := by
  rw [fitsDomain, h]

/-- Settles O30: both are the value of the group that the byte's bits are. -/
theorem byteViewIsWhatByteReadsGive : Obligations.ByteViewIsWhatByteReadsGive := by
  intro s j hdomain hj hleft
  obtain ⟨x, rest, hx, h⟩ := State.exists_group (s := s) (n := 8) (by omega)
  rw [byteView_of_group hx hj h, ← hj]
  exact execBsRbits_of_group (by decide) hx h (fitsDomain_default hdomain _)

/-- Settles O31: what BS.WBITS appends is the group of `v mod 2^n`, whole at the cursor. -/
theorem groupsReadBackAsWritten : Obligations.GroupsReadBackAsWritten := by
  intro s n v hdomain hn hempty hstart hcap
  have hslen : s.slen = 0 := by rw [State.slen, hempty]; rfl
  have hroom : s.roomFor n = true :=
    State.roomFor_iff.2 fun cap hc => by rw [hslen, Nat.zero_add]; exact hcap cap hc
  have hwrite := execBsWbits_of_room hn hroom v
  rw [succeed_writes] at hwrite
  have hunread : State.unread { s.append (putBits n v) with last := .ok, midsym := false } =
      putBits n (v % 2 ^ n) ++ [] := by
    simp [State.unread, hempty, hstart]
  have hread := execBsRbits_of_group hn (Nat.mod_lt v (Nat.two_pow_pos n)) hunread (fitsDomain_default hdomain _)
  refine ⟨_, _, hwrite, hread, rfl, rfl, ?_⟩
  simp [State.slen, hempty, hstart]

/-! The predictor. -/

theorem State.planeRead_inside {s : State} {row col : Int}
    (h : 0 ≤ row ∧ row < s.rows ∧ 0 ≤ col ∧ col < s.cols) :
    s.planeRead row col = ((s.cell (row * s.cols + col).toNat).toNat : Int) :=
  if_pos h

theorem State.planeRead_outside {s : State} {row col : Int}
    (h : row < 0 ∨ s.rows ≤ row ∨ col < 0 ∨ s.cols ≤ col) : s.planeRead row col = 0 :=
  if_neg (by omega)

theorem execPrPred_of_fit {s : State} {row col : Nat} (hfit : valuesFit s.params (s.predictValues row col) = true) :
    execPrPred row col s = succeed { s with result := s.predict row col } :=
  withValues_of_fit hfit _

/-- Settles O39: a coordinate read by its bounds, and the rule of R162 on the three reads. -/
theorem predGivesTheMedianEdge : Obligations.PredGivesTheMedianEdge := by
  intro s
  refine ⟨fun row col h1 h2 h3 h4 => ?_, fun row col hout => ?_, fun row col hfit => ?_⟩
  · exact State.planeRead_inside ⟨h1, h2, h3, h4⟩
  · exact State.planeRead_outside hout
  · exact (execPrPred_of_fit hfit).trans (succeed_writes _)

end Sys2Proof.Machine
end

section
/-! SUPPORT. Words and commands: what it is to decode to a command, said once (R80 to R84), and from it that encoding
and decoding invert each other and that the opcode table's masks and matches accept the same words. -/

namespace Sys2Proof.Laws

/-! The command a word is, by its opcode. -/

/-- The command of `i`'s row of the opcode table with its operands read from the word `w` (R81, R82). -/
def withFields (w : Word) : Instr → Instr
  | .nop => .nop
  | .clrerr => .clrerr
  | .bsClear => .bsClear
  | .bsRewind => .bsRewind
  | .bsWbit _ => .bsWbit (field w 0 0 == 1)
  | .bsWbits _ _ => .bsWbits (field w 23 16) (field w 15 0)
  | .bsRbit => .bsRbit
  | .bsRbits _ => .bsRbits (field w 23 16)
  | .bsFlush => .bsFlush
  | .bsTrunc _ => .bsTrunc (field w 23 0)
  | .rcSetm _ => .rcSetm (field w 23 0)
  | .rcEnc _ => .rcEnc (sext 24 (field w 23 0))
  | .rcDec => .rcDec
  | .prPred _ _ => .prPred (field w 23 12) (field w 11 0)
  | .plSetdim _ _ => .plSetdim (field w 23 12) (field w 11 0)
  | .plEnc => .plEnc
  | .plDec => .plDec
  | .plSeek _ => .plSeek (field w 23 0)
  | .plPut _ => .plPut (BitVec.ofNat 8 (field w 7 0))
  | .plGet => .plGet

/-- The opcode selects the row; the row's format and fields do the rest (R83, R84). -/
theorem decode_of_opcode {w : Word} {i : Instr} (h : field w 31 24 = opcodeOf i) :
    decode w = checked (formatOf i) w (withFields w i) := by
  unfold decode
  rw [h]
  cases i <;> rfl

theorem checked_eq_command_iff {f : Format} {w : Word} {i j : Instr} :
    checked f w i = .command j ↔ reservedZero f w = true ∧ i = j := by
  unfold checked
  split <;> simp_all

/-- Every command the decoder gives bears the opcode of the word. -/
theorem field_opcode_of_decode {w : Word} {i : Instr} (h : decode w = .command i) : field w 31 24 = opcodeOf i := by
  unfold decode at h
  split at h
  case h_21 => cases h
  all_goals
    obtain ⟨-, rfl⟩ := checked_eq_command_iff.1 h
    assumption

/-- A word is the command `i` exactly when it has `i`'s opcode, 0 in the reserved bits of `i`'s format, and `i`'s
operands in its fields (R84). -/
theorem decode_eq_command_iff {w : Word} {i : Instr} :
    decode w = .command i ↔
      field w 31 24 = opcodeOf i ∧ reservedZero (formatOf i) w = true ∧ withFields w i = i := by
  constructor
  · intro h
    have hop := field_opcode_of_decode h
    rw [decode_of_opcode hop] at h
    exact ⟨hop, checked_eq_command_iff.1 h⟩
  · rintro ⟨hop, hchecked⟩
    rw [decode_of_opcode hop]
    exact checked_eq_command_iff.2 hchecked

/-! The word of a command. -/

/-- The 24-bit immediate of a command's word (R81, R82). -/
def immediateOf : Instr → Nat
  | .bsWbit bit => bit.toNat
  | .bsWbits n v => n * 2 ^ 16 + v
  | .bsRbits n => n * 2 ^ 16
  | .bsTrunc n => n
  | .rcSetm m => m
  | .rcEnc value => (value % 2 ^ 24).toNat
  | .prPred row col => row * 2 ^ 12 + col
  | .plSetdim rows cols => rows * 2 ^ 12 + cols
  | .plSeek addr => addr
  | .plPut sample => sample.toNat
  | .nop | .clrerr | .bsClear | .bsRewind | .bsRbit | .bsFlush | .rcDec | .plEnc | .plDec | .plGet => 0

theorem encode_eq_commandWord (i : Instr) : encode i = commandWord (opcodeOf i) (immediateOf i) := by
  cases i <;> rfl

theorem opcode_and_reserved : ∀ i : Instr, OpcodeAndReserved.Statement i
  | .nop => OpcodeAndReserved.nop
  | .clrerr => OpcodeAndReserved.clrerr
  | .bsClear => OpcodeAndReserved.bsClear
  | .bsRewind => OpcodeAndReserved.bsRewind
  | .bsWbit bit => OpcodeAndReserved.bsWbit bit
  | .bsWbits n v => OpcodeAndReserved.bsWbits n v
  | .bsRbit => OpcodeAndReserved.bsRbit
  | .bsRbits n => OpcodeAndReserved.bsRbits n
  | .bsFlush => OpcodeAndReserved.bsFlush
  | .bsTrunc n => OpcodeAndReserved.bsTrunc n
  | .rcSetm m => OpcodeAndReserved.rcSetm m
  | .rcEnc value => OpcodeAndReserved.rcEnc value
  | .rcDec => OpcodeAndReserved.rcDec
  | .prPred row col => OpcodeAndReserved.prPred row col
  | .plSetdim rows cols => OpcodeAndReserved.plSetdim rows cols
  | .plEnc => OpcodeAndReserved.plEnc
  | .plDec => OpcodeAndReserved.plDec
  | .plSeek addr => OpcodeAndReserved.plSeek addr
  | .plPut sample => OpcodeAndReserved.plPut sample
  | .plGet => OpcodeAndReserved.plGet

theorem immediateOf_lt {i : Instr} (h : i.wf = true) : immediateOf i < 2 ^ 24 := by
  cases i with
  | bsWbit bit => exact bit.toNat_lt.trans (by decide)
  | rcEnc value => simp only [immediateOf]; omega
  | plPut sample => exact sample.isLt.trans (by decide)
  | _ => simp only [Instr.wf, Bool.and_eq_true, decide_eq_true_eq] at h; simp only [immediateOf]; omega

theorem field_encode_immediate {i : Instr} (h : i.wf = true) : field (encode i) 23 0 = immediateOf i := by
  rw [encode_eq_commandWord, field_imm (opcodeOf_lt i) (immediateOf_lt h) 23 0 (by decide) (by decide), Nat.pow_zero,
    Nat.div_one]
  exact Nat.mod_eq_of_lt (immediateOf_lt h)

/-- A field is its upper part and its lower part. -/
theorem field_split (w : Word) {hi k lo : Nat} (hk : k + 1 = lo) (h : lo ≤ hi) :
    field w hi lo * 2 ^ lo + field w k 0 = field w hi 0 := by
  have hpow : 2 ^ (hi + 1) = 2 ^ lo * 2 ^ (hi + 1 - lo) := by rw [← Nat.pow_add]; congr 1; omega
  simp only [field, Nat.pow_zero, Nat.div_one, Nat.sub_zero, hk]
  rw [hpow, Nat.mod_mul, Nat.mul_comm, Nat.add_comm]

/-- The two parts of an immediate are determined by it. -/
theorem fields_of_immediate {w : Word} {k lo x y : Nat} (hk : k + 1 = lo) (hlo : lo ≤ 23)
    (h : field w 23 0 = x * 2 ^ lo + y) (hy : y < 2 ^ lo) : field w 23 lo = x ∧ field w k 0 = y := by
  have hlow : field w k 0 < 2 ^ lo := hk ▸ field_lt w k 0
  rw [← field_split w hk hlo, Nat.mul_comm, Nat.mul_comm x] at h
  have hhigh : field w 23 lo = x := by
    have hdiv := congrArg (· / 2 ^ lo) h
    simpa only [Nat.mul_add_div (Nat.two_pow_pos lo), Nat.div_eq_of_lt hlow, Nat.div_eq_of_lt hy, Nat.add_zero]
      using hdiv
  subst hhigh
  exact ⟨rfl, Nat.add_left_cancel h⟩

theorem sext_emod {v : Nat} (h : v < 2 ^ 24) : (sext 24 v % 2 ^ 24).toNat = v := by
  unfold sext
  split <;> omega

theorem sext_of_emod {value : Int} (hlo : -(2 ^ 23) ≤ value) (hhi : value < 2 ^ 23) :
    sext 24 (value % 2 ^ 24).toNat = value := by
  unfold sext
  split <;> omega

/-- The operands of a command stand where its format says: read back from its own word they are the same. -/
theorem withFields_encode {i : Instr} (hwf : i.wf = true) : withFields (encode i) i = i := by
  have himm := field_encode_immediate hwf
  cases i with
  | nop | clrerr | bsClear | bsRewind | bsRbit | bsFlush | rcDec | plEnc | plDec | plGet => rfl
  | bsWbit bit => cases bit <;> rfl
  | bsTrunc n => exact congrArg Instr.bsTrunc himm
  | rcSetm m => exact congrArg Instr.rcSetm himm
  | plSeek addr => exact congrArg Instr.plSeek himm
  | rcEnc value =>
    simp only [Instr.wf, Bool.and_eq_true, decide_eq_true_eq] at hwf
    obtain ⟨hlow, hhigh⟩ := hwf
    rw [withFields, himm, immediateOf, sext_of_emod hlow hhigh]
  | bsWbits n v =>
    simp only [Instr.wf, Bool.and_eq_true, decide_eq_true_eq] at hwf
    obtain ⟨hn, hv⟩ := fields_of_immediate (k := 15) rfl (by decide) himm hwf.2
    rw [withFields, hn, hv]
  | bsRbits n =>
    obtain ⟨hn, -⟩ := fields_of_immediate (lo := 16) (x := n) (y := 0) rfl (by decide)
      (by rw [himm, immediateOf, Nat.add_zero]) (Nat.two_pow_pos 16)
    rw [withFields, hn]
  | prPred row col =>
    simp only [Instr.wf, Bool.and_eq_true, decide_eq_true_eq] at hwf
    obtain ⟨hrow, hcol⟩ := fields_of_immediate (k := 11) rfl (by decide) himm hwf.2
    rw [withFields, hrow, hcol]
  | plSetdim rows cols =>
    simp only [Instr.wf, Bool.and_eq_true, decide_eq_true_eq] at hwf
    obtain ⟨hrows, hcols⟩ := fields_of_immediate (k := 11) rfl (by decide) himm hwf.2
    rw [withFields, hrows, hcols]
  | plPut sample =>
    obtain ⟨-, hsample⟩ := fields_of_immediate (lo := 8) (x := 0) (y := sample.toNat) rfl (by decide)
      (by rw [himm, immediateOf, Nat.zero_mul, Nat.zero_add]) sample.isLt
    rw [withFields, hsample, BitVec.ofNat_toNat, BitVec.setWidth_eq]

/-- Read from a word with no reserved bit set, a command's operands make up the whole immediate. -/
theorem immediateOf_withFields {w : Word} {i : Instr} (h : reservedZero (formatOf i) w = true) :
    immediateOf (withFields w i) = field w 23 0 := by
  cases i <;> simp only [formatOf, reservedZero, beq_iff_eq] at h
  case nop | clrerr | bsClear | bsRewind | bsRbit | bsFlush | rcDec | plEnc | plDec | plGet => exact h.symm
  case bsTrunc | rcSetm | plSeek => rfl
  case rcEnc => exact sext_emod (field_lt w 23 0)
  case bsWbits => exact field_split w rfl (by decide)
  case prPred | plSetdim => exact field_split w rfl (by decide)
  case bsWbit =>
    have hbit := field_lt w 0 0
    rw [← field_split w (lo := 1) rfl (by decide), h]
    interval_cases hlow : field w 0 0 <;> simp [withFields, immediateOf, hlow]
  case bsRbits => rw [← field_split w (lo := 16) rfl (by decide), h, withFields, immediateOf, Nat.add_zero]
  case plPut =>
    rw [← field_split w (lo := 8) rfl (by decide), h, withFields, immediateOf, BitVec.toNat_ofNat,
      Nat.mod_eq_of_lt (field_lt w 7 0), Nat.zero_mul, Nat.zero_add]

/-- A word is its opcode and its immediate (R80). -/
theorem commandWord_field (w : Word) : commandWord (field w 31 24) (field w 23 0) = w := by
  have hlt := w.isLt
  apply BitVec.eq_of_toNat_eq
  rw [commandWord_toNat (field_lt w 31 24) (field_lt w 23 0)]
  unfold field
  omega

theorem encode_of_decode {w : Word} {i : Instr} (h : decode w = .command i) : encode i = w := by
  obtain ⟨hop, hreserved, hoperands⟩ := decode_eq_command_iff.1 h
  have himm := immediateOf_withFields hreserved
  rw [hoperands] at himm
  rw [encode_eq_commandWord, himm, ← hop, commandWord_field]

/-- Settles O1: the word of a command has its opcode, no reserved bit set, and its operands in its fields. -/
theorem decodeOfEncode : Obligations.DecodeOfEncode := fun i hwf =>
  have ⟨hop, hreserved⟩ := opcode_and_reserved i hwf
  decode_eq_command_iff.2 ⟨hop, hreserved, withFields_encode hwf⟩

theorem decode_of_encode_eq {w : Word} {i : Instr} (hwf : i.wf = true) (h : encode i = w) : decode w = .command i :=
  h ▸ decodeOfEncode i hwf

/-- Settles O2: a word is its opcode and its immediate, and both are those of the command. -/
theorem encodeOfDecode : Obligations.EncodeOfDecode :=
  fun _ _ h => ⟨decode_wf h, encode_of_decode h⟩

/-- Settles O4: each word is the one O1 gives for its command. -/
theorem decodesTheExampleWords : Obligations.DecodesTheExampleWords :=
  ⟨decode_of_encode_eq rfl rfl, decode_of_encode_eq rfl (by decide), decode_of_encode_eq rfl rfl,
    decode_of_encode_eq rfl rfl, decode_of_encode_eq rfl rfl, decode_of_encode_eq rfl rfl,
    decode_of_encode_eq rfl rfl, decode_of_encode_eq rfl rfl⟩

/-! The opcode table. -/

/-- The word whose bits `hi` down to `lo` are 1 and whose other bits are 0. -/
def fieldMask (hi lo : Nat) : Word :=
  BitVec.ofNat 32 ((2 ^ (hi + 1 - lo) - 1) * 2 ^ lo)

/-- A mask selects its field, left where it stands. -/
theorem and_fieldMask_toNat (w : Word) {hi lo : Nat} (hhi : hi < 32) :
    (w &&& fieldMask hi lo).toNat = field w hi lo * 2 ^ lo := by
  apply Nat.eq_of_testBit_eq
  intro i
  simp only [fieldMask, field, BitVec.toNat_and, BitVec.toNat_ofNat, Nat.testBit_and, Nat.testBit_mod_two_pow,
    Nat.testBit_mul_two_pow, Nat.testBit_two_pow_sub_one, Nat.testBit_div_two_pow]
  by_cases hlo : lo ≤ i
  · rw [Nat.sub_add_cancel hlo]
    grind
  · simp [hlo]

theorem and_fieldMask_eq_zero_iff (w : Word) {hi lo : Nat} (hhi : hi < 32) :
    w &&& fieldMask hi lo = 0 ↔ field w hi lo = 0 := by
  rw [← BitVec.toNat_inj, and_fieldMask_toNat w hhi]
  simp

theorem and_opcodeMask_iff (w : Word) {op : Nat} (hop : op < 2 ^ 8) :
    w &&& fieldMask 31 24 = commandWord op 0 ↔ field w 31 24 = op := by
  rw [← BitVec.toNat_inj, and_fieldMask_toNat w (by decide), commandWord_toNat hop (by decide)]
  omega

/-- The must-be-zero bits of a format (R81). -/
def reservedMask : Format → Word
  | .N => fieldMask 23 0
  | .B => fieldMask 23 1
  | .C => fieldMask 15 0
  | .P => fieldMask 23 8
  | .G | .U | .S | .D => 0

/-- The mask and match of a command's row (R84): the bits its opcode and its format fix, and their values. -/
def rowOf (i : Instr) : Word × Word :=
  (fieldMask 31 24 ||| reservedMask (formatOf i), commandWord (opcodeOf i) 0)

/-- A command of each row, with operands 0, in the table's order. -/
def oneOfEach : List Instr :=
  [.nop, .clrerr, .bsClear, .bsRewind, .bsWbit false, .bsWbits 0 0, .bsRbit, .bsRbits 0, .bsFlush, .bsTrunc 0,
    .rcSetm 0, .rcEnc 0, .rcDec, .prPred 0 0, .plSetdim 0 0, .plEnc, .plDec, .plSeek 0, .plPut 0, .plGet]

theorem opcodeTable_eq : opcodeTable = oneOfEach.map rowOf := by decide

@[simp] theorem opcodeOf_withFields (w : Word) (i : Instr) : opcodeOf (withFields w i) = opcodeOf i := by
  cases i <;> rfl

@[simp] theorem formatOf_withFields (w : Word) (i : Instr) : formatOf (withFields w i) = formatOf i := by
  cases i <;> rfl

@[simp] theorem rowOf_withFields (w : Word) (i : Instr) : rowOf (withFields w i) = rowOf i := by
  rw [rowOf, rowOf, opcodeOf_withFields, formatOf_withFields]

theorem withFields_zero_mem_oneOfEach (i : Instr) : withFields 0 i ∈ oneOfEach := by
  cases i <;> simp [withFields, oneOfEach, field, sext]

/-- The rows of the table are those of the commands. -/
theorem mem_opcodeTable_iff {row : Word × Word} : row ∈ opcodeTable ↔ ∃ i, rowOf i = row := by
  rw [opcodeTable_eq, List.mem_map]
  constructor
  · rintro ⟨i, -, hrow⟩
    exact ⟨i, hrow⟩
  · rintro ⟨i, hrow⟩
    exact ⟨withFields 0 i, withFields_zero_mem_oneOfEach i, (rowOf_withFields 0 i).trans hrow⟩

/-- A mask made of two disjoint parts, with a match that lies in the first of them. -/
theorem and_or_eq_iff {w a b x : Word} (ha : x &&& a = x) (hb : x &&& b = 0) :
    w &&& (a ||| b) = x ↔ w &&& a = x ∧ w &&& b = 0 := by
  constructor
  · rintro rfl
    constructor
    · rw [← ha, BitVec.and_assoc]; congr 1; ext; simp +contextual
    · rw [← hb, BitVec.and_assoc]; congr 1; ext; simp +contextual
  · rintro ⟨hwa, hwb⟩
    rw [BitVec.and_or_distrib_left, hwa, hwb]
    exact BitVec.or_zero

theorem and_reservedMask_iff (f : Format) (w : Word) : w &&& reservedMask f = 0 ↔ reservedZero f w = true := by
  cases f with
  | G | U | S | D => exact iff_of_true (BitVec.and_zero) rfl
  | N | B | C | P => exact (and_fieldMask_eq_zero_iff w (by decide)).trans beq_iff_eq.symm

theorem reservedZero_commandWord {op : Nat} (hop : op < 2 ^ 8) (f : Format) :
    reservedZero f (commandWord op 0) = true := by
  have hfield : ∀ hi lo, hi < 24 → lo ≤ hi → field (commandWord op 0) hi lo = 0 := fun hi lo hhi hlo => by
    rw [field_imm hop (by decide) hi lo hhi hlo, Nat.zero_div, Nat.zero_mod]
  cases f <;> simp [reservedZero, hfield]

/-- A row matches a word exactly when the word has the row's opcode and no reserved bit of its format set. -/
theorem row_matches_iff {w : Word} {i : Instr} :
    w &&& (rowOf i).1 = (rowOf i).2 ↔ field w 31 24 = opcodeOf i ∧ reservedZero (formatOf i) w = true := by
  have hop := opcodeOf_lt i
  have hcovered : commandWord (opcodeOf i) 0 &&& fieldMask 31 24 = commandWord (opcodeOf i) 0 :=
    (and_opcodeMask_iff _ hop).2 (field_opcode hop (by decide))
  have hdisjoint : commandWord (opcodeOf i) 0 &&& reservedMask (formatOf i) = 0 :=
    (and_reservedMask_iff _ _).2 (reservedZero_commandWord hop _)
  rw [rowOf, and_or_eq_iff hcovered hdisjoint, and_opcodeMask_iff w hop, and_reservedMask_iff]

theorem decode_of_row {w : Word} {i : Instr} (h : w &&& (rowOf i).1 = (rowOf i).2) :
    decode w = .command (withFields w i) := by
  obtain ⟨hop, hreserved⟩ := row_matches_iff.1 h
  rw [decode_of_opcode hop]
  exact checked_eq_command_iff.2 ⟨hreserved, rfl⟩

theorem row_of_decode {w : Word} {i : Instr} (h : decode w = .command i) : w &&& (rowOf i).1 = (rowOf i).2 := by
  obtain ⟨hop, hreserved, -⟩ := decode_eq_command_iff.1 h
  exact row_matches_iff.2 ⟨hop, hreserved⟩

/-- A word is a command exactly when a row of the table matches it (R84). -/
theorem exists_command_iff {w : Word} :
    (∃ i, decode w = .command i) ↔ ∃ row ∈ opcodeTable, w &&& row.1 = row.2 := by
  constructor
  · rintro ⟨i, h⟩
    exact ⟨rowOf i, mem_opcodeTable_iff.2 ⟨i, rfl⟩, row_of_decode h⟩
  · rintro ⟨row, hmem, h⟩
    obtain ⟨i, rfl⟩ := mem_opcodeTable_iff.1 hmem
    exact ⟨withFields w i, decode_of_row h⟩

/-- Two rows that match one word are the row of the one command it decodes to. -/
theorem row_unique {w : Word} {i j : Instr} (hi : w &&& (rowOf i).1 = (rowOf i).2)
    (hj : w &&& (rowOf j).1 = (rowOf j).2) : rowOf i = rowOf j := by
  have hsame : withFields w i = withFields w j :=
    Decoded.command.inj ((decode_of_row hi).symm.trans (decode_of_row hj))
  rw [← rowOf_withFields w i, hsame, rowOf_withFields]

/-- Settles O3: the rows of the table are those of the commands, and a row matches the words of its opcode with no
reserved bit set. -/
theorem decodeAcceptsExactlyTheTable : Obligations.DecodeAcceptsExactlyTheTable := by
  refine ⟨rfl, fun w => exists_command_iff, fun w row hrow row' hrow' h h' => ?_⟩
  obtain ⟨i, rfl⟩ := mem_opcodeTable_iff.1 hrow
  obtain ⟨j, rfl⟩ := mem_opcodeTable_iff.1 hrow'
  exact row_unique h h'

end Sys2Proof.Laws
end

section
/-! SUPPORT. The step of a presented word: the command it decodes to is performed (R192); a word no row of the opcode
table matches, and an operand out of range, complete with IllegalCommand (R85, R86, R221). -/

namespace Sys2Proof.Machine

theorem runWord_of_command {w : Word} {i : Instr} (h : decode w = .command i) (s : State) : runWord w s = exec i s := by
  rw [runWord, h]

theorem runWord_of_not_command {w : Word} (h : ¬ ∃ i, decode w = .command i) (s : State) :
    runWord w s = illegalWord s := by
  unfold runWord
  split
  next i hdecode => exact absurd ⟨i, hdecode⟩ h
  next => rfl

/-- The word is taken from the host's list and performed (R73, R192). -/
theorem step_of_presented {s : State} {w : Word} {rest : List HostEvent} (h : s.host = .command w :: rest) :
    step s = runWord w { s with host := rest } := by
  rw [step, fetch, State.taken, h]
  rfl

/-- Settles O8: the word is taken from the list, decoded and performed. -/
theorem stepRunsThePresentedCommand : Obligations.StepRunsThePresentedCommand :=
  fun _ _ _ _ hhost hdecode => (step_of_presented hhost).trans (runWord_of_command hdecode _)

theorem raise_illegalCommand (s : State) :
    raise .illegalCommand s =
      .next { s with last := .illegalCommand, midsym := false, errs := s.errs ||| 0x20#8 } := rfl

/-- Settles O9: a word no row matches is no command. -/
theorem illegalWordsOnlySetStatus : Obligations.IllegalWordsOnlySetStatus := by
  intro s w rest hhost hrows
  have hno : ¬ ∃ i, decode w = .command i := fun hcommand => by
    obtain ⟨row, hmem, hmatch⟩ := Laws.exists_command_iff.1 hcommand
    exact hrows row hmem hmatch
  rw [step_of_presented hhost, runWord_of_not_command hno]
  exact raise_illegalCommand _

/-! Operands out of range. -/

theorem execBsWbits_of_illegal {n : Nat} (hn : 16 < n) (v : Nat) (s : State) :
    execBsWbits n v s = raise .illegalCommand s :=
  if_neg fun h => absurd (groupLegal_iff.1 h) (not_le.2 hn)

theorem execBsRbits_of_illegal {n : Nat} (hn : 16 < n) (s : State) : execBsRbits n s = raise .illegalCommand s :=
  if_neg fun h => absurd (groupLegal_iff.1 h) (not_le.2 hn)

theorem execBsTrunc_of_illegal {s : State} {n : Nat} (hn : s.slen < n) : execBsTrunc n s = raise .illegalCommand s :=
  if_neg fun h => absurd (truncLegal_iff.1 h) (not_le.2 hn)

theorem execPlPut_of_illegal {s : State} (haddr : s.params.planeCap ≤ s.paddr) (v : Sample) :
    execPlPut v s = raise .illegalCommand s :=
  if_neg fun h => absurd (paddrLegal_iff.1 h) (not_lt.2 haddr)

theorem execPlGet_of_illegal {s : State} (haddr : s.params.planeCap ≤ s.paddr) :
    execPlGet s = raise .illegalCommand s :=
  if_neg fun h => absurd (paddrLegal_iff.1 h) (not_lt.2 haddr)

/-- Settles O22: each of the five commands asks for its range before it does anything. -/
theorem outOfRangeOperandsAreIllegal : Obligations.OutOfRangeOperandsAreIllegal := by
  intro s stopped
  have hraise : raise .illegalCommand s = .next stopped := raise_illegalCommand s
  refine ⟨fun n v hn => ?_, fun n hn => ?_, fun n hn => ?_, fun haddr => ⟨fun v => ?_, ?_⟩⟩
  · exact (execBsWbits_of_illegal hn v s).trans hraise
  · exact (execBsRbits_of_illegal hn s).trans hraise
  · exact (execBsTrunc_of_illegal hn).trans hraise
  · exact (execPlPut_of_illegal haddr v).trans hraise
  · exact (execPlGet_of_illegal haddr).trans hraise

end Sys2Proof.Machine
end

section
/-! SUPPORT. The spellings RC.DEC accepts: a symbol is its value's own but for the sign of zero (R101, R102, R141). -/

namespace Sys2Proof.Machine

@[simp] theorem signed_natAbs (sign : Bool) (magnitude : Nat) : (signed sign magnitude).natAbs = magnitude := by
  cases sign <;> simp [signed]

/-- A signed magnitude is negative exactly when the sign bit is 1 and the magnitude is not 0 (R141). -/
theorem signed_neg_iff {sign : Bool} {magnitude : Nat} :
    signed sign magnitude < 0 ↔ sign = true ∧ magnitude ≠ 0 := by
  cases sign <;> simp [signed]
  omega

/-- The encoder's symbol of the value that a sign bit, a quotient and a remainder `r < m` give. -/
theorem symbolBits_signed {c : Rice} {r : Nat} (hr : r < c.m) (sign : Bool) (q : Nat) :
    symbolBits c (signed sign (q * c.m + r)) =
      (sign && decide (q * c.m + r ≠ 0)) :: (List.replicate q true ++ (false :: remainderBits c r)) := by
  have hmag := signed_natAbs sign (q * c.m + r)
  have hq : quotient c (signed sign (q * c.m + r)) = q := by
    rw [quotient, hmag, Nat.mul_comm, Nat.mul_add_div (by omega), Nat.div_eq_of_lt hr, Nat.add_zero]
  have hrem : remainder c (signed sign (q * c.m + r)) = r := by
    rw [remainder, hq, hmag, Nat.add_sub_cancel_left]
  rw [symbolBits, hq, hrem]
  congr 1
  rw [Bool.eq_iff_iff]
  simp only [decide_eq_true_eq, Bool.and_eq_true, signed_neg_iff]

/-- What is read as `v` is the symbol of `v`, or `v` is 0 and its sign bit is 1 (R102). -/
theorem spelling_of_takeSymbol {m : Nat} {bits rest : List Bool} {v : Int} (hm : 1 ≤ m)
    (h : takeSymbol (riceOf m) bits = .value v rest) :
    bits = symbolBits (riceOf m) v ++ rest ∨ v = 0 ∧ bits = true :: ((symbolBits (riceOf m) 0).tail ++ rest) := by
  obtain ⟨sign, q, r, hr, rfl, rfl⟩ := (takeSymbol_value_iff hm).1 h
  have hsymbol := symbolBits_signed (c := riceOf m) hr sign q
  rw [riceOf_m] at hsymbol
  by_cases hzero : sign = true ∧ q * m + r = 0
  · obtain ⟨rfl, hmag⟩ := hzero
    have hv : signed true (q * m + r) = 0 := by rw [hmag]; rfl
    rw [hv] at hsymbol ⊢
    exact .inr ⟨rfl, by rw [hsymbol]; simp⟩
  · have hsign : (sign && decide (q * m + r ≠ 0)) = sign := by cases sign <;> simp_all
    exact .inl (by rw [hsymbol, hsign]; simp)

/-- Whichever spelling was read, the bits after it are left. -/
theorem State.unread_consumeTo_takeSymbol {s : State} {m : Nat} {v : Int} {rest : List Bool} (hm : 1 ≤ m)
    (h : takeSymbol (riceOf m) s.unread = .value v rest) : (s.consumeTo rest).unread = rest := by
  rcases spelling_of_takeSymbol hm h with hbits | ⟨-, hbits⟩
  · exact State.unread_consumeTo hbits
  · exact State.unread_consumeTo (pre := true :: (symbolBits (riceOf m) 0).tail) hbits

/-- Settles O37: RC.DEC completes OK only with a symbol read. -/
theorem decodedSymbolsAreTheEncodersOwn : Obligations.DecodedSymbolsAreTheEncodersOwn := by
  intro s t hm hrice hexec hok
  obtain ⟨u, c, x, heff, rfl⟩ := exec_next hexec
  cases heff with
  | stopped hcode =>
    subst hok
    simp [possibleCodes] at hcode
  | rcDecCut => cases hok
  | @rcDec v rest _ hread =>
    rw [hrice] at hread ⊢
    have hunread : State.unread ({ s.consumeTo rest with result := v }.complete .ok false) = rest :=
      State.unread_consumeTo_takeSymbol hm hread
    rw [hunread]
    exact spelling_of_takeSymbol hm hread

end Sys2Proof.Machine
end

section
/-! SUPPORT. BS.CLEAR, BS.REWIND and BS.TRUNC complete OK, BS.TRUNC within its range (R110, R111, R117). -/

namespace Sys2Proof.Machine

theorem execBsTrunc_of_legal {s : State} {n : Nat} (hn : n ≤ s.slen) :
    execBsTrunc n s = succeed { s with stream := s.stream.take n, rpos := min s.rpos n } :=
  if_pos (truncLegal_iff.2 hn)

/-- Settles O25: only BS.TRUNC asks anything before it completes OK, and `n ≤ SLEN` answers it. -/
theorem streamControlCommandsComplete : Obligations.StreamControlCommandsComplete := by
  intro s
  refine ⟨?bsClear, ?bsRewind, fun n hn => ?bsTrunc⟩
  case bsClear => exact succeed_writes { s with stream := [], rpos := 0 }
  case bsRewind => exact succeed_writes { s with rpos := 0 }
  case bsTrunc => exact (execBsTrunc_of_legal hn).trans (succeed_writes _)

end Sys2Proof.Machine
end

section
/-! SUPPORT. The Golomb-Rice coder's commands, by the case they are in: no parameter, a symbol written with room, a symbol
read whole, the end of the stream, a symbol cut short (R141 to R147, R217). -/

namespace Sys2Proof.Machine

/-! No parameter (R217). -/

theorem raise_invalidParameter (s : State) :
    raise .invalidParameter s =
      .next { s with last := .invalidParameter, midsym := false, errs := s.errs ||| 0x02#8 } := rfl

theorem State.not_parameterSet {s : State} (hm : s.m = 0) : ¬ parameterSet s = true := by
  rw [parameterSet_iff, hm]
  decide

theorem execRcSetm_zero (s : State) : execRcSetm 0 s = raise .invalidParameter s :=
  if_neg (by decide)

theorem execRcEnc_of_unset {s : State} (hm : s.m = 0) (v : Int) : execRcEnc v s = raise .invalidParameter s :=
  if_neg (State.not_parameterSet hm)

theorem execRcDec_of_unset {s : State} (hm : s.m = 0) : execRcDec s = raise .invalidParameter s :=
  if_neg (State.not_parameterSet hm)

theorem execPlEnc_of_unset {s : State} (hm : s.m = 0) : execPlEnc s = raise .invalidParameter s :=
  if_neg (State.not_parameterSet hm)

theorem execPlDec_of_unset {s : State} (hm : s.m = 0) : execPlDec s = raise .invalidParameter s :=
  if_neg (State.not_parameterSet hm)

/-- Settles O21: each of the five commands asks for its parameter before it does anything. -/
theorem invalidParameterStops : Obligations.InvalidParameterStops := by
  intro s stopped
  have hraise : raise .invalidParameter s = .next stopped := raise_invalidParameter s
  refine ⟨?rcSetm, fun hm => ⟨fun v => ?rcEnc, ?rcDec, ?plEnc, ?plDec⟩⟩
  case rcSetm => exact (execRcSetm_zero s).trans hraise
  case rcEnc => exact (execRcEnc_of_unset hm v).trans hraise
  case rcDec => exact (execRcDec_of_unset hm).trans hraise
  case plEnc => exact (execPlEnc_of_unset hm).trans hraise
  case plDec => exact (execPlDec_of_unset hm).trans hraise

/-! The symbol and its length. -/

/-- The remainder field bit by bit: no bit, `B − 1` bits of `r`, or `B` bits of `r + U` (R131). -/
theorem remainderBits_eq_map (c : Rice) (r : Nat) :
    remainderBits c r =
      if c.b = 0 then []
      else if r < c.u then (List.range (c.b - 1)).map fun i => r.testBit (c.b - 1 - 1 - i)
      else (List.range c.b).map fun i => (r + c.u).testBit (c.b - 1 - i) := by
  rw [remainderBits, putBits_eq_map, putBits_eq_map]

/-- The symbol with `q` and `r` as quotient and remainder of the magnitude by M (R135). -/
theorem symbolBits_eq_div_mod (c : Rice) (v : Int) :
    symbolBits c v =
      decide (v < 0) ::
        (List.replicate (v.natAbs / c.m) true ++ (false :: remainderBits c (v.natAbs % c.m))) := by
  rw [symbolBits, remainder_eq_mod, quotient]

/-- The values of a symbol, with `q` and `r` as quotient and remainder of the magnitude by M (R10, R135). -/
theorem symbolValues_eq_div_mod (c : Rice) (v : Int) :
    symbolValues c v = [v, (v.natAbs : Int), ((v.natAbs / c.m : Nat) : Int), ((v.natAbs % c.m : Nat) : Int)] := by
  rw [symbolValues, remainder_eq_mod, quotient]

/-- The length depends on the magnitude alone (R142). -/
theorem symLen_eq_div_mod (c : Rice) (v : Int) :
    symLen c v = 2 + v.natAbs / c.m + remainderLength c (v.natAbs % c.m) := by
  rw [symLen, remainder_eq_mod, quotient]

theorem symLen_neg (c : Rice) (v : Int) : symLen c (-v) = symLen c v := by
  rw [symLen_eq_div_mod, symLen_eq_div_mod, Int.natAbs_neg]

/-- Settles O34: the length is that of the three fields, each of which depends on the magnitude alone. -/
theorem symLenIsTheNumberOfBits : Obligations.SymLenIsTheNumberOfBits := by
  refine ⟨fun m v _ => ⟨?length, ?negation, ?formula⟩, ?examples⟩
  case length => exact (symbolBits_length (riceOf m) v).symm
  case negation => exact (symLen_neg (riceOf m) v).symm
  case formula => exact symLen_eq_div_mod (riceOf m) v
  case examples => decide

/-! RC.ENC. -/

/-- RC.ENC with a parameter, values that fit and room for the symbol (R146). -/
theorem execRcEnc_of_room {s : State} {v : Int} (hm : 1 ≤ s.m)
    (hfit : valuesFit s.params (symbolValues s.rice v) = true) (hroom : s.roomFor (symLen s.rice v) = true) :
    execRcEnc v s = succeed (s.append (symbolBits s.rice v)) := by
  rw [execRcEnc, if_pos (parameterSet_iff.2 hm), withValues_of_fit hfit, if_pos hroom]

/-- Settles O33: the symbol of R135, with the remainder field written bit by bit, is what RC.ENC appends. -/
theorem encAppendsOneSymbol : Obligations.EncAppendsOneSymbol := by
  intro s v hm q r group field symbol hfit hcap
  have hfield : field = remainderBits s.rice r := (remainderBits_eq_map s.rice r).symm
  have hsymbol : symbol = symbolBits s.rice v := by
    rw [symbolBits_eq_div_mod]
    exact congrArg (fun f => decide (v < 0) :: (List.replicate q true ++ (false :: f))) hfield
  have hvalues : valuesFit s.params (symbolValues s.rice v) = true := by
    rw [symbolValues_eq_div_mod]
    exact hfit
  rw [hsymbol] at hcap ⊢
  have hroom : s.roomFor (symLen s.rice v) = true := by
    rw [← symbolBits_length]
    exact State.roomFor_iff.2 hcap
  exact (execRcEnc_of_room hm hvalues hroom).trans (succeed_writes _)

/-! RC.DEC. -/

/-- RC.DEC when the bits `pre` at the cursor are read as `v` (R147): the cursor advances by their number. -/
theorem execRcDec_of_value {s : State} {v : Int} {pre rest : List Bool} (hm : 1 ≤ s.m)
    (hread : takeSymbol s.rice s.unread = .value v rest) (hpre : s.unread = pre ++ rest)
    (hfit : valuesFit s.params (symbolValues s.rice v) = true) :
    execRcDec s = .next { s with result := v, rpos := s.rpos + pre.length, last := .ok, midsym := false } := by
  have hrpos : (s.consumeTo rest).rpos = s.rpos + pre.length := State.consumeTo_rpos_of_append hpre
  rw [execRcDec, if_pos (parameterSet_iff.2 hm), hread, ← hrpos]
  exact withValues_of_fit hfit _

theorem execRcDec_of_nil {s : State} (hm : 1 ≤ s.m) (h : s.unread = []) : execRcDec s = raise .endOfStream s := by
  rw [execRcDec, if_pos (parameterSet_iff.2 hm), takeSymbol_endOfStream_iff.2 h]

theorem execRcDec_of_incomplete {s : State} (hm : 1 ≤ s.m) (h : takeSymbol s.rice s.unread = .incomplete) :
    execRcDec s = raiseIncomplete true (s.consumeTo []) := by
  rw [execRcDec, if_pos (parameterSet_iff.2 hm), h]

/-- Settles O35: the read gives the value back and leaves the bits after the symbol. -/
theorem symbolRoundTrip : Obligations.SymbolRoundTrip := by
  intro s v rest hm hrice hfit h
  rw [← symbolBits_length]
  exact execRcDec_of_value hm (State.takeSymbol_unread hm hrice h) h hfit

/-- After a sign bit the symbol of 0 goes on with a quotient of 0 and a remainder of 0 (R135). -/
theorem symbolBits_zero (c : Rice) : symbolBits c 0 = false :: false :: remainderBits c 0 := by
  simp [symbolBits_eq_div_mod]

/-- The symbol of 0 reads as 0 with either sign bit (R141). -/
theorem takeSymbol_zero {m : Nat} (hm : 1 ≤ m) (sign : Bool) (rest : List Bool) :
    takeSymbol (riceOf m) (sign :: ((symbolBits (riceOf m) 0).tail ++ rest)) = .value 0 rest := by
  have hvalue : (0 : Int) = signed sign (0 * m + 0) := by cases sign <;> simp [signed]
  exact (takeSymbol_value_iff hm).2 ⟨sign, 0, 0, hm, hvalue, by rw [symbolBits_zero]; rfl⟩

/-- Settles O36: whatever the sign bit, the read gives 0 and the spelling is as long as the encoder's symbol. -/
theorem negativeZeroDecodesToZero : Obligations.NegativeZeroDecodesToZero := by
  intro s sign rest hm hrice hdomain
  refine ⟨by rw [symbolBits_zero]; rfl, fun h => ?_⟩
  have hread : takeSymbol s.rice s.unread = .value 0 rest := by
    rw [h, hrice]
    exact takeSymbol_zero hm sign rest
  have hlen : (sign :: (symbolBits s.rice 0).tail).length = symLen s.rice 0 := by
    rw [← symbolBits_length, symbolBits_zero]
    rfl
  rw [← hlen]
  exact execRcDec_of_value hm hread h (valuesFit_default hdomain _)

/-! Symbols cut short. -/

/-- Bits added at the end change neither the value read nor the bits it was read from (R140). -/
theorem takeSymbol_value_append {m : Nat} {bits rest : List Bool} {v : Int} (hm : 1 ≤ m)
    (h : takeSymbol (riceOf m) bits = .value v rest) (more : List Bool) :
    takeSymbol (riceOf m) (bits ++ more) = .value v (rest ++ more) := by
  obtain ⟨sign, q, r, hr, hv, rfl⟩ := (takeSymbol_value_iff hm).1 h
  exact (takeSymbol_value_iff hm).2 ⟨sign, q, r, hr, hv, by simp⟩

/-- A symbol cut short after its sign bit has no value: with the missing bits added, that value would be read before
the symbol's own end (R138, R139). -/
theorem takeSymbol_of_cut {m : Nat} {bits cut : List Bool} {v : Int} (hm : 1 ≤ m) (hbits : bits ≠ []) (hcut : cut ≠ [])
    (h : symbolBits (riceOf m) v = bits ++ cut) : takeSymbol (riceOf m) bits = .incomplete := by
  cases hread : takeSymbol (riceOf m) bits with
  | endOfStream => exact absurd (takeSymbol_endOfStream_iff.1 hread) hbits
  | incomplete => rfl
  | value w rest =>
    have hshort := takeSymbol_value_append hm hread cut
    have hwhole := takeSymbol_symbolBits_append hm v []
    rw [List.append_nil, h, hshort] at hwhole
    obtain ⟨-, hrest⟩ := SymbolRead.value.inj hwhole
    exact absurd (List.append_eq_nil_iff.1 hrest).2 hcut

theorem raiseIncomplete_true (s : State) :
    raiseIncomplete true s =
      .next { s with last := .incompleteStream, midsym := true, errs := s.errs ||| 0x04#8 } := rfl

/-- Settles O38: with no bit left the read ends before it begins, and a cut symbol takes the cursor to the end. -/
theorem decAtTheEndOfTheStream : Obligations.DecAtTheEndOfTheStream := by
  intro s hm hrice hle
  refine ⟨fun hnil => ?_, fun v cut hbits hcut h => ?_⟩
  · exact (execRcDec_of_nil hm hnil).trans (raise_endOfStream s)
  · have hread : takeSymbol s.rice s.unread = .incomplete := by
      rw [hrice] at h ⊢
      exact takeSymbol_of_cut hm hbits hcut h
    rw [← State.consumeTo_nil_rpos hle]
    exact (execRcDec_of_incomplete hm hread).trans (raiseIncomplete_true _)

end Sys2Proof.Machine
end

section
/-! SUPPORT. The predictor's own rules: where a prediction lies (R163), what it is on the first row and column (R164),
and which cells it looks at (R165). -/

namespace Sys2Proof.Machine

/-! The rule on three integers (R162). -/

/-- The prediction lies between its left and top neighbour, whatever the top-left one is (R163). -/
theorem medianEdge_between (a b c : Int) : min a b ≤ medianEdge a b c ∧ medianEdge a b c ≤ max a b := by
  unfold medianEdge
  split
  next => exact ⟨le_rfl, min_le_max⟩
  next hhigh =>
    split
    next => exact ⟨min_le_max, le_rfl⟩
    next hlow => omega

/-- Where the top and the top-left neighbour agree, the left one is predicted (R164, first row). -/
theorem medianEdge_of_top_eq (a c : Int) : medianEdge a c c = a := by
  unfold medianEdge
  rcases le_or_gt a c with hle | hlt
  · rw [if_pos (max_le hle le_rfl), min_eq_left hle]
  · rw [if_neg (not_le.2 (lt_max_of_lt_left hlt)), if_pos (le_min hlt.le le_rfl), max_eq_left hlt.le]

theorem medianEdge_comm (a b c : Int) : medianEdge a b c = medianEdge b a c := by
  unfold medianEdge
  rw [max_comm, min_comm, add_comm]

/-- Where the left and the top-left neighbour agree, the top one is predicted (R164, first column). -/
theorem medianEdge_of_left_eq (b c : Int) : medianEdge c b c = b :=
  (medianEdge_comm c b c).trans (medianEdge_of_top_eq b c)

/-- Settles O40: the rule keeps between its neighbours, and a neighbour is a cell or 0. -/
theorem predictionLiesBetweenItsNeighbours : Obligations.PredictionLiesBetweenItsNeighbours := by
  intro s row col
  obtain ⟨hlow, hhigh⟩ : min (s.leftOf row col) (s.topOf row col) ≤ s.predict row col ∧
      s.predict row col ≤ max (s.leftOf row col) (s.topOf row col) := medianEdge_between _ _ _
  obtain ⟨hleft0, hleft255⟩ : 0 ≤ s.leftOf row col ∧ s.leftOf row col ≤ 255 := s.planeRead_range _ _
  obtain ⟨htop0, htop255⟩ : 0 ≤ s.topOf row col ∧ s.topOf row col ≤ 255 := s.planeRead_range _ _
  exact ⟨hlow, hhigh, (le_min hleft0 htop0).trans hlow, hhigh.trans (max_le hleft255 htop255)⟩

/-! The neighbours outside the plane (R161). -/

@[simp] theorem State.leftOf_col_zero (s : State) (row : Nat) : s.leftOf row 0 = 0 :=
  State.planeRead_outside (.inr (.inr (.inl (by decide))))

@[simp] theorem State.topOf_row_zero (s : State) (col : Nat) : s.topOf 0 col = 0 :=
  State.planeRead_outside (.inl (by decide))

@[simp] theorem State.topLeftOf_row_zero (s : State) (col : Nat) : s.topLeftOf 0 col = 0 :=
  State.planeRead_outside (.inl (by decide))

@[simp] theorem State.topLeftOf_col_zero (s : State) (row : Nat) : s.topLeftOf row 0 = 0 :=
  State.planeRead_outside (.inr (.inr (.inl (by decide))))

theorem State.predict_row_zero (s : State) (col : Nat) : s.predict 0 col = s.leftOf 0 col := by
  rw [State.predict, State.topOf_row_zero, State.topLeftOf_row_zero, medianEdge_of_top_eq]

theorem State.predict_col_zero (s : State) (row : Nat) : s.predict row 0 = s.topOf row 0 := by
  rw [State.predict, State.leftOf_col_zero, State.topLeftOf_col_zero, medianEdge_of_left_eq]

/-- Settles O41: the neighbours outside the plane are 0, and the rule then gives the one that is left. -/
theorem edgePredictions : Obligations.EdgePredictions := fun s =>
  ⟨⟨s.leftOf_col_zero 0, s.topOf_row_zero 0, s.topLeftOf_row_zero 0,
      (s.predict_row_zero 0).trans (s.leftOf_col_zero 0)⟩,
    fun col _ => ⟨s.topOf_row_zero col, s.topLeftOf_row_zero col, s.predict_row_zero col⟩,
    fun row _ => ⟨s.leftOf_col_zero row, s.topLeftOf_col_zero row, s.predict_col_zero row⟩⟩

/-! The cells a prediction looks at. -/

theorem State.cols_pos_of_lt_positions {s : State} {k : Nat} (hk : k < s.positions) : 0 < s.cols :=
  Nat.pos_of_mul_pos_left (Nat.zero_lt_of_lt hk)

/-- Of the rest of the state, agreement below `k` asks for the coder and the parameters as well; a prediction sees
neither, so those of `s` may stand in `t`. -/
theorem State.predictAt_congr_below {s t : State} {k : Nat} (hr : t.rows = s.rows) (hc : t.cols = s.cols)
    (hpos : 0 < s.cols) (hcells : ∀ a < k, t.cell a = s.cell a) : t.predictAt k = s.predictAt k := by
  have hagree : s.AgreesBelow { t with m := s.m, b := s.b, u := s.u, params := s.params } k :=
    ⟨rfl, hr, hc, rfl, hcells⟩
  exact hagree.predictAt hpos

/-- Settles O42: the three neighbours of a position stand before it in raster order, or outside the plane. -/
theorem predictionIsCausal : Obligations.PredictionIsCausal :=
  fun _ _ _ hr hc hk hcells => State.predictAt_congr_below hr hc (State.cols_pos_of_lt_positions hk) hcells

end Sys2Proof.Machine
end

section
/-! SUPPORT. The single plane commands, by the case they are in: PL.SETDIM within the capacity or not, PL.SEEK, PL.PUT
and PL.GET (R179, R182 to R184); the range of a residual (R178) and planes of no size (R186). -/

namespace Sys2Proof.Machine

/-! PL.SETDIM. -/

theorem raise_geometryMismatch (s : State) :
    raise .geometryMismatch s =
      .next { s with last := .geometryMismatch, midsym := false, errs := s.errs ||| 0x08#8 } := rfl

theorem execPlSetdim_of_fits {s : State} {rows cols : Nat} (h : rows * cols ≤ s.params.planeCap) :
    execPlSetdim rows cols s = succeed { s with rows := rows, cols := cols } :=
  if_pos (geometryLegal_iff.2 h)

theorem execPlSetdim_of_mismatch {s : State} {rows cols : Nat} (h : s.params.planeCap < rows * cols) :
    execPlSetdim rows cols s = raise .geometryMismatch s :=
  if_neg fun hlegal => absurd (geometryLegal_iff.1 hlegal) (not_le.2 h)

/-- The largest operands PL.SETDIM can carry stay below the default capacity (R9, R81). -/
theorem mul_lt_of_plSetdim_wf {rows cols : Nat} (h : (Instr.plSetdim rows cols).wf = true) :
    rows * cols < 2 ^ 24 := by
  obtain ⟨hrows, hcols⟩ := Bool.and_eq_true_iff.1 h
  calc rows * cols < 2 ^ 12 * 2 ^ 12 := Nat.mul_lt_mul'' (of_decide_eq_true hrows) (of_decide_eq_true hcols)
    _ = 2 ^ 24 := by norm_num

/-- Settles O43: the capacity decides, and two operands of 12 bits cannot exceed the default one. -/
theorem setdimSetsTheGeometry : Obligations.SetdimSetsTheGeometry := by
  intro s rows cols
  refine ⟨fun hfits => ?fits, fun hmismatch => ?mismatch, fun hdefault hwf => ?default⟩
  case fits => exact (execPlSetdim_of_fits hfits).trans (succeed_writes _)
  case mismatch => exact (execPlSetdim_of_mismatch hmismatch).trans (raise_geometryMismatch s)
  case default => exact hdefault ▸ (mul_lt_of_plSetdim_wf hwf).le

/-! PL.SEEK, PL.PUT and PL.GET. -/

theorem execPlPut_of_legal {s : State} (haddr : s.paddr < s.params.planeCap) (v : Sample) :
    execPlPut v s = succeed { s.writeCell s.paddr v with paddr := s.paddr + 1 } :=
  if_pos (paddrLegal_iff.2 haddr)

theorem execPlGet_of_legal {s : State} (haddr : s.paddr < s.params.planeCap)
    (hfit : fitsDomain s.params (s.cell s.paddr).toNat = true) :
    execPlGet s = succeed { s with result := (s.cell s.paddr).toNat, paddr := s.paddr + 1 } := by
  have hvalues : valuesFit s.params [((s.cell s.paddr).toNat : Int)] = true := by rw [valuesFit_cons, hfit]; rfl
  rw [execPlGet, if_pos (paddrLegal_iff.2 haddr), withValues_of_fit hvalues]

/-- Settles O44: the store after PL.PUT is the old one with the one cell written. -/
theorem seekPutAndGetComplete : Obligations.SeekPutAndGetComplete := by
  intro s
  refine ⟨fun a => ?seek, fun haddr v => ⟨Memory.write s.plane s.paddr v, ?put, ?written, fun a ha => ?others⟩,
    fun haddr hfit => ?get⟩
  case seek => exact succeed_writes { s with paddr := a }
  case put => exact (execPlPut_of_legal haddr v).trans (succeed_writes _)
  case written => rw [Memory.read?_write, if_pos rfl]
  case others => rw [Memory.read?_write, if_neg ha.symm]
  case get => exact (execPlGet_of_legal haddr hfit).trans (succeed_writes _)

/-! Residuals. -/

/-- A residual is the difference of two values from 0 to 255 (R163, R178). -/
theorem State.residual_range (s : State) (k : Nat) : -255 ≤ s.residual k ∧ s.residual k ≤ 255 := by
  obtain ⟨-, -, hlow, hhigh⟩ : _ ∧ _ ∧ 0 ≤ s.predictAt k ∧ s.predictAt k ≤ 255 :=
    predictionLiesBetweenItsNeighbours s (s.rowOf k) (s.colOf k)
  have hcell := (s.cell k).isLt
  unfold State.residual
  omega

/-- Settles O47: 255 is the residual of a first cell 255, and −255 that of a 0 after it. -/
theorem residualsLieWithinASample : Obligations.ResidualsLieWithinASample :=
  ⟨State.residual_range,
    ⟨{ State.reset with rows := 1, cols := 1, plane := [(0, 255#8)] }, 0, by decide, by decide⟩,
    ⟨{ State.reset with rows := 1, cols := 2, plane := [(0, 255#8), (1, 0#8)] }, 1, by decide, by decide⟩⟩

/-! Planes of no size. -/

/-- No coordinate is inside a plane of no size (R52, R186). -/
theorem State.planeRead_of_empty {s : State} (h : s.rows = 0 ∨ s.cols = 0) (row col : Int) :
    s.planeRead row col = 0 :=
  State.planeRead_outside (by omega)

theorem State.predict_of_empty {s : State} (h : s.rows = 0 ∨ s.cols = 0) (row col : Nat) : s.predict row col = 0 := by
  rw [State.predict, State.leftOf, State.topOf, State.topLeftOf]
  simp only [State.planeRead_of_empty h]
  rfl

theorem execPlEnc_of_no_position {s : State} (hm : 1 ≤ s.m) (h : s.positions = 0) :
    execPlEnc s = succeed { s with count := 0 } := by
  rw [execPlEnc, if_pos (parameterSet_iff.2 hm), h, encodePass]

theorem execPlDec_of_no_position {s : State} (hm : 1 ≤ s.m) (h : s.positions = 0) :
    execPlDec s = succeed { s with count := 0 } := by
  rw [execPlDec, if_pos (parameterSet_iff.2 hm), h, decodePass, Memory.zeroFill]

/-- Settles O51: neither pass has a position, and every neighbour is outside the plane. -/
theorem zeroSizePlanes : Obligations.ZeroSizePlanes := by
  intro s hempty
  have hnone : s.positions = 0 := Nat.mul_eq_zero.2 hempty
  refine ⟨fun hm => ⟨?enc, ?dec⟩, State.predict_of_empty hempty⟩
  case enc => exact (execPlEnc_of_no_position hm hnone).trans (succeed_writes _)
  case dec => exact (execPlDec_of_no_position hm hnone).trans (succeed_writes _)

end Sys2Proof.Machine
end

section
/-! SUPPORT. The encode pass in closed form: the positions for which there is room, and what comes after them (R172,
R180, R222). -/

namespace Sys2Proof.Machine

/-- Room for more is room for less. -/
theorem State.roomFor_mono {s : State} {n k : Nat} (hle : n ≤ k) (h : s.roomFor k = true) : s.roomFor n = true :=
  State.roomFor_iff.2 fun cap hcap => (Nat.add_le_add_left hle _).trans (State.roomFor_iff.1 h cap hcap)

/-- One more symbol at the end. -/
theorem State.symbolsFrom_succ_last (s : State) (k j : Nat) :
    s.symbolsFrom k (j + 1) = s.symbolsFrom k j ++ symbolBits s.rice (s.residual (k + j)) := by
  simp [State.symbolsFrom, List.range'_1_concat]

/-- The symbols from position 0 on, as the statements write them. -/
theorem State.symbolsFrom_zero (s : State) (j : Nat) :
    s.symbolsFrom 0 j = (List.range j).flatMap fun k => symbolBits s.rice (s.residual k) := by
  rw [State.symbolsFrom, List.range_eq_range']

/-- One position of the encode pass, in the terms of the values it checks. -/
theorem encodePass_succ (n k : Nat) (s : State) :
    encodePass (n + 1) k s =
      withValues s (s.encodeValues k)
        (if s.roomFor (symLen s.rice (s.residual k)) then encodePass n (k + 1) (s.encodedAt k)
         else raise .streamFull s) := rfl

/-- The encode pass does the first `j` positions when their values fit and their symbols have room; it goes on from
there. -/
theorem encodePass_of_room {j n k : Nat} {s : State} (hcount : s.count = k)
    (hfit : ∀ i < j, valuesFit s.params (s.encodeValues (k + i)) = true)
    (hroom : s.roomFor (s.symbolsFrom k j).length = true) :
    encodePass (j + n) k s =
      encodePass n (k + j) { s with stream := s.stream ++ s.symbolsFrom k j, count := k + j } := by
  induction j generalizing k s with
  | zero =>
    subst hcount
    simp [State.symbolsFrom]
  | succ j ih =>
    rw [State.symbolsFrom_succ, List.length_append] at hroom
    have hfirst : s.roomFor (symLen s.rice (s.residual k)) = true :=
      State.roomFor_mono (by rw [← symbolBits_length]; exact Nat.le_add_right _ _) hroom
    have hlater : (s.encodedAt k).roomFor ((s.encodedAt k).symbolsFrom (k + 1) j).length = true := by
      rwa [State.roomFor_encodedAt, State.symbolsFrom_encodedAt]
    have hshift : ∀ i, k + 1 + i = k + (i + 1) := fun i => by omega
    have hrest := ih (k := k + 1) (s := s.encodedAt k) rfl
      (fun i hi => by rw [State.encodeValues_encodedAt, hshift]; exact hfit (i + 1) (Nat.succ_lt_succ hi)) hlater
    rw [State.symbolsFrom_encodedAt, State.encodedAt_stream, List.append_assoc, ← State.symbolsFrom_succ,
      hshift] at hrest
    have hvalues : valuesFit s.params (s.encodeValues k) = true := hfit 0 (Nat.zero_lt_succ j)
    rw [Nat.add_right_comm, encodePass_succ, withValues_of_fit hvalues, if_pos hfirst, hrest]
    rfl

/-- A position whose values fit but whose symbol does not have room ends the pass (R222). -/
theorem encodePass_of_full {n k : Nat} {s : State} (hfit : valuesFit s.params (s.encodeValues k) = true)
    (hfull : ¬ s.roomFor (symLen s.rice (s.residual k)) = true) : encodePass (n + 1) k s = raise .streamFull s := by
  rw [encodePass_succ, withValues_of_fit hfit, if_neg hfull]

/-- PL.ENC with values that fit and room for every symbol. -/
theorem execPlEnc_of_room {s : State} (hm : 1 ≤ s.m)
    (hfit : ∀ k < s.positions, valuesFit s.params (s.encodeValues k) = true)
    (hroom : s.roomFor (s.symbolsFrom 0 s.positions).length = true) :
    execPlEnc s =
      succeed { s with stream := s.stream ++ s.symbolsFrom 0 s.positions, count := s.positions } := by
  have hpass := encodePass_of_room (n := 0) (k := 0) (s := { s with count := 0 }) rfl
    (fun i hi => by rw [Nat.zero_add]; exact hfit i hi) hroom
  rw [Nat.zero_add] at hpass
  rw [execPlEnc, if_pos (parameterSet_iff.2 hm)]
  exact hpass

/-- Settles O45: the pass does all positions. -/
theorem planeEncodeAppendsAllSymbols : Obligations.PlaneEncodeAppendsAllSymbols := by
  intro s hm residual symbols hfit hcap
  have hsymbols : s.symbolsFrom 0 s.positions = symbols := s.symbolsFrom_zero s.positions
  rw [← hsymbols] at hcap ⊢
  exact (execPlEnc_of_room hm hfit (State.roomFor_iff.2 hcap)).trans (succeed_writes _)

/-- PL.ENC in the default domain, with room for the symbols of `j` positions and not for the next one. -/
theorem execPlEnc_of_full {s : State} {cap j : Nat} (hm : 1 ≤ s.m) (hdomain : DefaultDomain s)
    (hcap : s.params.streamCap = some cap) (hj : j < s.positions) (hroom : s.slen + (s.symbolsFrom 0 j).length ≤ cap)
    (hfull : cap < s.slen + (s.symbolsFrom 0 (j + 1)).length) :
    execPlEnc s = raise .streamFull { s with stream := s.stream ++ s.symbolsFrom 0 j, count := j } := by
  obtain ⟨n, hn⟩ : ∃ n, s.positions = j + (n + 1) := ⟨s.positions - (j + 1), by omega⟩
  have hpass := encodePass_of_room (n := n + 1) (k := 0) (s := { s with count := 0 }) rfl
    (fun i _ => valuesFit_default hdomain _)
    (State.roomFor_iff.2 fun c hc => by
      obtain rfl : cap = c := Option.some.inj (hcap.symm.trans hc)
      exact hroom)
  rw [Nat.zero_add] at hpass
  have hnext : ¬ State.roomFor { s with stream := s.stream ++ s.symbolsFrom 0 j, count := j }
      (symLen s.rice (s.residual j)) = true :=
    State.not_roomFor hcap (by
      rw [State.symbolsFrom_succ_last, Nat.zero_add] at hfull
      simpa [State.slen, Nat.add_assoc] using hfull)
  rw [execPlEnc, if_pos (parameterSet_iff.2 hm), hn]
  exact hpass.trans (encodePass_of_full (valuesFit_default hdomain _) hnext)

/-- Settles O46: the pass does `j` positions and stops at the next one. -/
theorem planeEncodeStopsWhenFull : Obligations.PlaneEncodeStopsWhenFull := by
  intro s cap j hm hdomain hcap hj symbols hroom hfull
  have hsymbols : ∀ n, s.symbolsFrom 0 n = symbols n := s.symbolsFrom_zero
  rw [← hsymbols] at hroom hfull ⊢
  exact (execPlEnc_of_full hm hdomain hcap hj hroom hfull).trans (raise_streamFull _)

end Sys2Proof.Machine
end

section
/-! SUPPORT. The decode pass in closed form: the plane it rebuilds from a list of integers, and what it does when the
stream holds their symbols, and nothing but a cut symbol after them (R173 to R175, R181). -/

namespace Sys2Proof.Machine

/-! The plane rebuilt from a list of integers. -/

/-- The plane store after the pass has rebuilt the cells from `k` on from the integers `ds`, `p` being the store before:
each cell is its prediction, from the cells rebuilt so far, plus its integer (R173, R174). -/
def State.rebuilt (s : State) (k : Nat) (ds : List Int) (p : Memory) : Memory :=
  match ds with
  | [] => p
  | d :: ds => s.rebuilt (k + 1) ds (Memory.write p k (wrapSample (State.predictAt { s with plane := p } k + d)))

@[simp] theorem State.rebuilt_nil (s : State) (k : Nat) (p : Memory) : s.rebuilt k [] p = p := rfl

theorem State.rebuilt_cons (s : State) (k : Nat) (d : Int) (ds : List Int) (p : Memory) :
    s.rebuilt k (d :: ds) p =
      s.rebuilt (k + 1) ds (Memory.write p k (wrapSample (State.predictAt { s with plane := p } k + d))) := rfl

/-- The cells before and after those rebuilt keep what they held. -/
theorem State.read?_rebuilt_outside (s : State) {k : Nat} {ds : List Int} (p : Memory) {a : Nat}
    (h : a < k ∨ k + ds.length ≤ a) : Memory.read? (s.rebuilt k ds p) a = Memory.read? p a := by
  induction ds generalizing k p with
  | nil => rfl
  | cons d ds ih =>
    rw [List.length_cons] at h
    rw [State.rebuilt_cons, ih _ (by omega), Memory.read?_write, if_neg (by omega)]

/-- Two states of one geometry and reset count whose stores read alike below `k` predict alike at `k` (R165). -/
theorem State.predictAt_withPlane_congr {s : State} {k : Nat} {p q : Memory} (hpos : 0 < s.cols)
    (h : ∀ a < k, Memory.read? p a = Memory.read? q a) :
    State.predictAt { s with plane := p } k = State.predictAt { s with plane := q } k :=
  State.predictAt_congr_below (s := { s with plane := q }) rfl rfl hpos fun a ha => by
    rw [State.cell, State.cell, h a ha]

/-- Each rebuilt cell is its prediction in the finished plane plus its integer: the cells a prediction looks at are
finished when it is made. -/
theorem State.read?_rebuilt {s : State} (hpos : 0 < s.cols) (k : Nat) (ds : List Int) (p : Memory) (i : Nat)
    (hi : i < ds.length) :
    Memory.read? (s.rebuilt k ds p) (k + i) =
      some (wrapSample (State.predictAt { s with plane := s.rebuilt k ds p } (k + i) + ds[i])) := by
  induction ds generalizing k p i with
  | nil => exact absurd hi (Nat.not_lt_zero i)
  | cons d ds ih =>
    cases i with
    | zero =>
      have hpredict : State.predictAt { s with plane := s.rebuilt k (d :: ds) p } k =
          State.predictAt { s with plane := p } k :=
        State.predictAt_withPlane_congr hpos fun a ha => s.read?_rebuilt_outside p (.inl ha)
      rw [Nat.add_zero, hpredict, State.rebuilt_cons, s.read?_rebuilt_outside _ (.inl (Nat.lt_succ_self k)),
        Memory.read?_write, if_pos rfl]
      rfl
    | succ i =>
      have hshift : k + (i + 1) = k + 1 + i := by omega
      rw [State.rebuilt_cons, hshift]
      exact ih (k + 1) _ i (Nat.lt_of_succ_lt_succ hi)

/-- The plane store PL.DEC leaves: zeros first, then the cells rebuilt from `ds` (R173). -/
def State.decodedPlane (s : State) (ds : List Int) : Memory :=
  s.rebuilt 0 ds (Memory.zeroFill s.positions s.plane)

/-- The rebuilt cells, in the terms of the statements (R174). -/
theorem State.exists_read?_decodedPlane {s : State} {ds : List Int} (hlen : ds.length ≤ s.positions) (k : Nat)
    (hk : k < ds.length) :
    ∃ v, Memory.read? (s.decodedPlane ds) k = some v ∧
      (v.toNat : Int) = (State.predictAt { s with plane := s.decodedPlane ds } k + ds[k]) % 256 := by
  have hread := State.read?_rebuilt (State.cols_pos_of_lt_positions (hk.trans_le hlen)) 0 ds
    (Memory.zeroFill s.positions s.plane) k hk
  rw [Nat.zero_add] at hread
  exact ⟨_, hread, wrapSample_toNat _⟩

/-- The cells of the plane for which there is no integer keep the 0 of the zero fill (R175). -/
theorem State.read?_decodedPlane_left {s : State} {ds : List Int} {k : Nat} (hlen : ds.length ≤ k)
    (hk : k < s.positions) : Memory.read? (s.decodedPlane ds) k = some 0 := by
  rw [State.decodedPlane, s.read?_rebuilt_outside _ (.inr (by omega)), Memory.read?_zeroFill, if_pos hk]

/-- The cells beyond the plane keep what they held (R173). -/
theorem State.read?_decodedPlane_beyond {s : State} {ds : List Int} (hlen : ds.length ≤ s.positions) {a : Nat}
    (ha : s.positions ≤ a) : Memory.read? (s.decodedPlane ds) a = Memory.read? s.plane a := by
  rw [State.decodedPlane, s.read?_rebuilt_outside _ (.inr (by omega)), Memory.read?_zeroFill, if_neg (not_lt.2 ha)]

/-! The pass. -/

/-- `s` in the middle of a decode pass: `p` is the plane store so far, `r` the cursor, `k` the positions done. -/
abbrev State.decoding (s : State) (p : Memory) (r k : Nat) : State :=
  { s with plane := p, rpos := r, count := k }

/-- Unread bits after some have been read. -/
theorem State.unread_decoding {s : State} {p : Memory} {r k : Nat} {pre rest : List Bool}
    (h : (s.decoding p r k).unread = pre ++ rest) (q : Memory) (j : Nat) :
    (s.decoding q (r + pre.length) j).unread = rest :=
  (State.unread_congr (s := (s.decoding p r k).consumeTo rest) (t := s.decoding q (r + pre.length) j) rfl
    (State.consumeTo_rpos_of_append h).symm).trans (State.unread_consumeTo h)

/-- The state after position `k`, whose symbol stands whole at the cursor. -/
theorem State.decodedAt_decoding {s : State} {p : Memory} {r k : Nat} {pre rest : List Bool}
    (h : (s.decoding p r k).unread = pre ++ rest) (d : Int) :
    (s.decoding p r k).decodedAt k d rest =
      s.decoding (Memory.write p k (wrapSample (State.predictAt { s with plane := p } k + d))) (r + pre.length)
        (k + 1) := by
  have hrpos : ((s.decoding p r k).consumeTo rest).rpos = r + pre.length := State.consumeTo_rpos_of_append h
  rw [← hrpos]
  rfl

/-- The decode pass takes the whole symbols of `ds` when the values of every position fit in the plane so rebuilt; it
goes on from there. -/
theorem decodePass_of_symbols {s : State} {m : Nat} (hm : 1 ≤ m) (hrice : s.rice = riceOf m) {ds : List Int}
    (hpos : ds ≠ [] → 0 < s.cols) {rest : List Bool} {k r : Nat} {p : Memory}
    (hunread : (s.decoding p r k).unread = (ds.flatMap fun d => symbolBits s.rice d) ++ rest)
    (hfit : ∀ i (h : i < ds.length),
      valuesFit s.params (State.decodeValues { s with plane := s.rebuilt k ds p } (k + i) ds[i]) = true) (n : Nat) :
    decodePass (ds.length + n) k (s.decoding p r k) =
      decodePass n (k + ds.length) (s.decoding (s.rebuilt k ds p)
        (r + (ds.flatMap fun d => symbolBits s.rice d).length) (k + ds.length)) := by
  induction ds generalizing k r p with
  | nil => simp
  | cons d ds ih =>
    have hcols : 0 < s.cols := hpos (List.cons_ne_nil d ds)
    rw [List.flatMap_cons, List.append_assoc] at hunread
    have hagree : State.AgreesBelow { s with plane := s.rebuilt k (d :: ds) p } (s.decoding p r k) k :=
      ⟨rfl, rfl, rfl, rfl, fun a ha => by
        rw [State.cell, State.cell, s.read?_rebuilt_outside p (.inl ha)]⟩
    have hvalues : valuesFit s.params ((s.decoding p r k).decodeValues k d) = true := by
      rw [hagree.decodeValues hcols]
      exact hfit 0 (Nat.zero_lt_succ _)
    have hshift : ∀ i, k + (i + 1) = k + 1 + i := fun i => by omega
    have hrest := ih (fun _ => hcols) (State.unread_decoding hunread
        (Memory.write p k (wrapSample (State.predictAt { s with plane := p } k + d))) (k + 1)) fun i hi => by
      rw [← hshift, ← State.rebuilt_cons]
      exact hfit (i + 1) (Nat.succ_lt_succ hi)
    rw [List.length_cons, Nat.add_right_comm, decodePass_of_symbol (s := s.decoding p r k) hm hrice hunread,
      withValues_of_fit (s := s.decoding p r k) hvalues,
      State.decodedAt_decoding hunread, hrest, hshift ds.length, State.rebuilt_cons, List.flatMap_cons,
      List.length_append, Nat.add_assoc r]

/-- PL.DEC on the symbols of `ds`: the zero fill, these positions, and then the rest of the pass. -/
theorem execPlDec_of_symbols {s : State} (hm : 1 ≤ s.m) (hrice : s.rice = riceOf s.m) {ds : List Int}
    (hlen : ds.length ≤ s.positions) {rest : List Bool}
    (hunread : s.unread = (ds.flatMap fun d => symbolBits s.rice d) ++ rest)
    (hfit : ∀ i (h : i < ds.length),
      valuesFit s.params (State.decodeValues { s with plane := s.decodedPlane ds } i ds[i]) = true) :
    execPlDec s = decodePass (s.positions - ds.length) ds.length
      (s.decoding (s.decodedPlane ds) (s.rpos + (ds.flatMap fun d => symbolBits s.rice d).length) ds.length) := by
  have hpos : ds ≠ [] → 0 < s.cols := fun hne =>
    State.cols_pos_of_lt_positions ((List.length_pos_iff.2 hne).trans_le hlen)
  have hpass := decodePass_of_symbols hm hrice hpos (k := 0) (r := s.rpos)
    (p := Memory.zeroFill s.positions s.plane) hunread
    (fun i hi => by rw [Nat.zero_add]; exact hfit i hi) (s.positions - ds.length)
  rw [Nat.add_sub_cancel' hlen, Nat.zero_add] at hpass
  rw [execPlDec, if_pos (parameterSet_iff.2 hm)]
  exact hpass

/-- Settles O48: the plane is the one rebuilt from the integers, and the pass has no position left. -/
theorem planeDecodeReconstructs : Obligations.PlaneDecodeReconstructs := by
  intro s ds rest hm hrice built hfit hlen hunread
  have hbuilt : built (s.decodedPlane ds) := State.exists_read?_decodedPlane hlen.le
  refine ⟨s.decodedPlane ds, ?_, hbuilt, fun a ha => State.read?_decodedPlane_beyond hlen.le ha⟩
  have hdone := execPlDec_of_symbols hm hrice hlen.le hunread (hfit _ hbuilt)
  rw [hlen, Nat.sub_self, decodePass] at hdone
  exact hdone.trans (succeed_writes _)

/-! The stream ends early. -/

theorem raiseIncomplete_writes (x : Bool) (s : State) :
    raiseIncomplete x s =
      .next { s with last := .incompleteStream, midsym := x, errs := s.errs ||| 0x04#8 } := rfl

/-- The decode pass with nothing or a cut symbol at the cursor (R175, R218). -/
theorem decodePass_of_cut {s : State} {m : Nat} (hm : 1 ≤ m) (hrice : s.rice = riceOf m) (hle : s.rpos ≤ s.slen)
    (hcut : s.unread = [] ∨ ∃ v post, post ≠ [] ∧ symbolBits s.rice v = s.unread ++ post) (n k : Nat) :
    decodePass (n + 1) k s = raiseIncomplete (decide (s.unread ≠ [])) { s with rpos := s.slen } := by
  by_cases hnil : s.unread = []
  · have hend : s.slen = s.rpos := by
      have := s.unread_length
      rw [hnil, List.length_nil] at this
      omega
    rw [decodePass, takeSymbol_endOfStream_iff.2 hnil, hend, decide_eq_false (not_not.2 hnil)]
  · obtain ⟨v, post, hpost, hsymbol⟩ := hcut.resolve_left hnil
    have hread : takeSymbol s.rice s.unread = .incomplete := by
      rw [hrice] at hsymbol ⊢
      exact takeSymbol_of_cut hm hnil hpost hsymbol
    rw [decodePass, hread, ← State.consumeTo_nil_rpos hle, decide_eq_true hnil]
    rfl

/-- Settles O49: the pass does the positions of `ds`, and at the next one it finds the end of the stream. -/
theorem planeDecodeStopsEarly : Obligations.PlaneDecodeStopsEarly := by
  intro s ds cut hm hrice built hfit hle hlen hunread hcut
  have hbuilt : built (s.decodedPlane ds) := State.exists_read?_decodedPlane hlen.le
  refine ⟨s.decodedPlane ds, ?_, hbuilt, fun k hk hlt => State.read?_decodedPlane_left hk hlt,
    fun a ha => State.read?_decodedPlane_beyond hlen.le ha⟩
  obtain ⟨n, hn⟩ : ∃ n, s.positions - ds.length = n + 1 := ⟨s.positions - ds.length - 1, by omega⟩
  have hdone := execPlDec_of_symbols hm hrice hlen.le hunread (hfit _ hbuilt)
  rw [hn] at hdone
  have hleft := State.unread_decoding (p := s.plane) (r := s.rpos) (k := s.count) hunread
    (s.decodedPlane ds) ds.length
  have hlength := congrArg List.length hunread
  rw [State.unread_length, List.length_append] at hlength
  have hcursor : s.rpos + (ds.flatMap fun d => symbolBits s.rice d).length ≤ s.slen := by omega
  have hstop := decodePass_of_cut (s := s.decoding (s.decodedPlane ds)
    (s.rpos + (ds.flatMap fun d => symbolBits s.rice d).length) ds.length) hm hrice hcursor
    (by rw [hleft]; exact hcut) n ds.length
  rw [hleft, raiseIncomplete_writes] at hstop
  exact hdone.trans hstop

end Sys2Proof.Machine
end

section
/-! SUPPORT. Two properties of PL.DEC across states: it inverts PL.ENC (R177), and it sees nothing of the store it
fills, nor of the bits before the cursor (R187). -/

namespace Sys2Proof.Machine

/-! The round trip. -/

/-- The residuals of the plane in raster order (R171, R172). -/
def State.residuals (s : State) : List Int :=
  (List.range s.positions).map s.residual

@[simp] theorem State.residuals_length (s : State) : s.residuals.length = s.positions := by
  simp [State.residuals]

theorem State.residuals_getElem (s : State) {k : Nat} (h : k < s.residuals.length) : s.residuals[k] = s.residual k := by
  simp [State.residuals]

/-- What PL.ENC appends is the symbols of the residuals. -/
theorem State.symbolsFrom_eq_residuals (s : State) :
    s.symbolsFrom 0 s.positions = s.residuals.flatMap fun d => symbolBits s.rice d := by
  rw [State.symbolsFrom_zero, State.residuals, List.flatMap_map]

/-- PL.ENC completes OK only with every symbol appended (R180). -/
theorem stream_of_plEnc_ok {s t : State} (h : exec .plEnc s = .next t) (hok : t.last = .ok) :
    t.stream = s.stream ++ s.symbolsFrom 0 s.positions := by
  obtain ⟨u, c, x, heff, rfl⟩ := exec_next h
  rw [State.complete_last] at hok
  subst hok
  cases heff with
  | stopped hcode => simp [possibleCodes] at hcode
  | @plEnc j _ _ hcode =>
    obtain rfl : j = s.positions := by simpa using hcode
    rfl

/-- A store of the same geometry rebuilt from the residuals of `s` holds the cells of `s`: by R165 the predictions are
those of `s`, and the residual adds what was taken away (R177). -/
theorem State.read?_of_residuals {s d : State} (hr : d.rows = s.rows) (hc : d.cols = s.cols) {p : Memory}
    (hbuilt : ∀ k < s.positions, ∃ v, Memory.read? p k = some v ∧
      (v.toNat : Int) = (State.predictAt { d with plane := p } k + s.residual k) % 256)
    {k : Nat} (hk : k < s.positions) : Memory.read? p k = some (s.cell k) := by
  induction k using Nat.strong_induction_on with
  | _ k ih =>
    obtain ⟨v, hread, hv⟩ := hbuilt k hk
    have hpredict : State.predictAt { d with plane := p } k = s.predictAt k :=
      State.predictAt_congr_below hr hc (State.cols_pos_of_lt_positions hk) fun a ha =>
        State.cell_of_written (ih a ha (ha.trans hk))
    have hcell : v = s.cell k := by
      apply BitVec.eq_of_toNat_eq
      rw [hpredict, State.residual] at hv
      have := (s.cell k).isLt
      omega
    rw [hread, hcell]

/-- A cell that has been written reads as its value. -/
theorem State.read?_eq_cell {s : State} {k : Nat} (h : Memory.read? s.plane k ≠ none) :
    Memory.read? s.plane k = some (s.cell k) := by
  obtain ⟨v, hv⟩ := Option.ne_none_iff_exists'.1 h
  rw [State.cell_of_written hv, hv]

/-- Settles O50: PL.DEC reads the residuals that PL.ENC wrote. -/
theorem planeRoundTrip : Obligations.PlaneRoundTrip := by
  rintro s t d hm hrice - hwritten henc hok hdrice hdrows hdcols hddomain hrpos ⟨more, hmore⟩
  have hstream := stream_of_plEnc_ok henc hok
  rw [s.symbolsFrom_eq_residuals, ← hdrice] at hstream
  have hpositions : d.positions = s.positions := by rw [State.positions, State.positions, hdrows, hdcols]
  have hdm : d.m = s.m := congrArg Rice.m hdrice
  have hunread : d.unread = (s.residuals.flatMap fun x => symbolBits d.rice x) ++ more := by
    rw [State.unread, hmore, hstream, hrpos, List.append_assoc]
    exact List.drop_left
  obtain ⟨p, hdec, hbuilt, -⟩ := planeDecodeReconstructs d s.residuals more (hdm.symm ▸ hm)
    (by rw [hdrice, hdm, hrice]) (fun p _ k _ => valuesFit_default hddomain _)
    (s.residuals_length.trans hpositions.symm) hunread
  refine ⟨_, hdec, rfl, hpositions, ?cursor, fun k hk => ?cell⟩
  case cursor => rw [State.slen, hstream, List.length_append, hrpos, State.slen]
  case cell =>
    rw [State.read?_eq_cell (hwritten k hk)]
    refine State.read?_of_residuals hdrows hdcols (fun i hi => ?_) hk
    have hi' : i < s.residuals.length := s.residuals_length.symm ▸ hi
    rw [← s.residuals_getElem hi']
    exact hbuilt i hi'

/-! Two runs of PL.DEC. -/

/-- `s` and `t` agree on all that PL.DEC looks at: the coder, the geometry of `n` positions, the parameters, the bits
left, COUNT, and the cells of the plane, all of them written. -/
structure State.DecodesAlike (n : Nat) (s t : State) : Prop where
  positions : s.positions = n
  rice : t.rice = s.rice
  rows : t.rows = s.rows
  cols : t.cols = s.cols
  params : t.params = s.params
  unread : t.unread = s.unread
  count : t.count = s.count
  cells : ∀ a < n, ∃ v, Memory.read? s.plane a = some v ∧ Memory.read? t.plane a = some v

/-- Both runs complete alike, or both are refused by one name. -/
inductive DecodeAnswersAlike (n : Nat) : Answer → Answer → Prop
  | complete {s t : State} (h : s.DecodesAlike n t) (c : Status) (x : Bool) :
    DecodeAnswersAlike n (.next (s.complete c x)) (.next (t.complete c x))
  | refused (r : Refusal) : DecodeAnswersAlike n (.refused r) (.refused r)

/-- What reads leave unread depends on what was unread before them alone. -/
theorem State.unread_consumeTo_eq_drop (s : State) (rest : List Bool) :
    (s.consumeTo rest).unread = s.unread.drop (s.unread.length - rest.length) := by
  rw [State.unread, State.consumeTo_stream, State.consumeTo_rpos, ← List.drop_drop]
  rfl

section Alike

variable {n k : Nat} {s t : State}

theorem State.DecodesAlike.agreesBelow (h : s.DecodesAlike n t) (hk : k < n) : s.AgreesBelow t k where
  rice := h.rice
  rows := h.rows
  cols := h.cols
  params := h.params
  cells a ha := by
    obtain ⟨v, hs, ht⟩ := h.cells a (ha.trans hk)
    rw [State.cell_of_written hs, State.cell_of_written ht]

theorem State.DecodesAlike.cols_pos (h : s.DecodesAlike n t) (hk : k < n) : 0 < s.cols :=
  State.cols_pos_of_lt_positions (h.positions.symm ▸ hk)

theorem State.DecodesAlike.consumeTo (h : s.DecodesAlike n t) (rest : List Bool) :
    (s.consumeTo rest).DecodesAlike n (t.consumeTo rest) :=
  { h with unread := by rw [State.unread_consumeTo_eq_drop, State.unread_consumeTo_eq_drop, h.unread] }

/-- One value written to one cell of both. -/
theorem State.DecodesAlike.writeCell (h : s.DecodesAlike n t) (a : Nat) (v : Sample) :
    (s.writeCell a v).DecodesAlike n (t.writeCell a v) :=
  { h with
    cells := fun b hb => by
      rw [State.writeCell_plane, State.writeCell_plane, Memory.read?_write, Memory.read?_write]
      by_cases hab : a = b
      · exact ⟨v, if_pos hab, if_pos hab⟩
      · rw [if_neg hab, if_neg hab]
        exact h.cells b hb }

/-- The same integer at the same position: the predictions agree, so both write one value. -/
theorem State.DecodesAlike.decodedAt (h : s.DecodesAlike n t) (hk : k < n) (d : Int) (rest : List Bool) :
    (s.decodedAt k d rest).DecodesAlike n (t.decodedAt k d rest) := by
  have hpredict : t.predictAt k = s.predictAt k := (h.agreesBelow hk).predictAt (h.cols_pos hk)
  have hwritten := (h.consumeTo rest).writeCell k (wrapSample (s.predictAt k + d))
  rw [State.decodedAt, State.decodedAt, hpredict]
  exact { hwritten with count := rfl }

theorem DecodeAnswersAlike.values {vs ws : List Int} {a b : Answer} (hp : t.params = s.params) (hv : ws = vs)
    (h : DecodeAnswersAlike n a b) : DecodeAnswersAlike n (withValues s vs a) (withValues t ws b) := by
  unfold withValues
  rw [hp, hv]
  split
  · exact h
  · exact .refused _

/-- What the second of two alike answers is when the first is a next state. -/
theorem DecodeAnswersAlike.next_left {a b : Answer} (h : DecodeAnswersAlike n a b) (ha : a = .next t) :
    ∃ t', b = .next t' ∧ t'.last = t.last ∧ t'.midsym = t.midsym ∧ t'.count = t.count ∧ t'.unread = t.unread ∧
      ∀ k < n, Memory.read? t'.plane k = Memory.read? t.plane k := by
  cases h with
  | refused => cases ha
  | complete halike c x =>
    cases ha
    refine ⟨_, rfl, rfl, rfl, halike.count, halike.unread, fun k hk => ?_⟩
    obtain ⟨v, hs, ht⟩ := halike.cells k hk
    exact ht.trans hs.symm

/-- The two passes stay alike, position by position. -/
theorem State.DecodesAlike.decodePass (h : s.DecodesAlike n t) {j : Nat} (hj : k + j ≤ n) :
    DecodeAnswersAlike n (Machine.decodePass j k s) (Machine.decodePass j k t) := by
  induction j generalizing k s t with
  | zero => exact .complete h .ok false
  | succ j ih =>
    have hk : k < n := by omega
    have hread : takeSymbol t.rice t.unread = takeSymbol s.rice s.unread := by rw [h.rice, h.unread]
    rw [Machine.decodePass, Machine.decodePass, hread]
    cases takeSymbol s.rice s.unread with
    | endOfStream => exact .complete h .incompleteStream false
    | incomplete => exact .complete (h.consumeTo []) .incompleteStream true
    | value d rest =>
      have hvalues : t.decodeValues k d = s.decodeValues k d := (h.agreesBelow hk).decodeValues (h.cols_pos hk) d
      exact .values h.params hvalues (ih (h.decodedAt hk d rest) (by omega))

end Alike

/-- The zero fill makes the two stores alike (R173). -/
theorem State.decodesAlike_zeroFill {s d : State} (hrice : d.rice = s.rice) (hrows : d.rows = s.rows)
    (hcols : d.cols = s.cols) (hparams : d.params = s.params) (hunread : d.unread = s.unread) (p q : Memory) :
    State.DecodesAlike s.positions { s with plane := Memory.zeroFill s.positions p, count := 0 }
      { d with plane := Memory.zeroFill s.positions q, count := 0 } where
  positions := rfl
  rice := hrice
  rows := hrows
  cols := hcols
  params := hparams
  unread := hunread
  count := rfl
  cells a ha := ⟨0, by rw [Memory.read?_zeroFill, if_pos ha], by rw [Memory.read?_zeroFill, if_pos ha]⟩

theorem execPlDec_answersAlike {s d : State} (hm : 1 ≤ s.m) (hrice : d.rice = s.rice) (hrows : d.rows = s.rows)
    (hcols : d.cols = s.cols) (hparams : d.params = s.params) (hunread : d.unread = s.unread) :
    DecodeAnswersAlike s.positions (execPlDec s) (execPlDec d) := by
  have hdm : d.m = s.m := congrArg Rice.m hrice
  have hpositions : d.positions = s.positions := by rw [State.positions, State.positions, hrows, hcols]
  rw [execPlDec, execPlDec, if_pos (parameterSet_iff.2 hm), if_pos (parameterSet_iff.2 (hdm.symm ▸ hm)), hpositions]
  exact (State.decodesAlike_zeroFill hrice hrows hcols hparams hunread _ _).decodePass (Nat.zero_add _).le

/-- Settles O52: the zero fill makes the two states alike, and the passes keep them so. -/
theorem planeDecodeIgnoresTheOldPlane : Obligations.PlaneDecodeIgnoresTheOldPlane := by
  intro s d t hm hrice hrows hcols hparams hunread hexec
  exact (execPlDec_answersAlike hm hrice hrows hcols hparams hunread).next_left hexec

end Sys2Proof.Machine
end

section
/-! SUPPORT. NOP and CLRERR complete OK (R190, R191), and with VAL_BITS unbounded every word the host presents has a
next state: no fault exists, and a refusal needs a finite VAL_BITS (R192, R227, R253, U6). -/

namespace Sys2Proof.Machine

/-- Settles O24: neither command asks anything before it completes OK. -/
theorem controlCommandsComplete : Obligations.ControlCommandsComplete := by
  intro s
  refine ⟨?nop, ?clrerr⟩
  case nop => exact succeed_writes s
  case clrerr => exact succeed_writes { s with errs := 0#8 }

theorem exec_answers (i : Instr) {s : State} (hs : DefaultDomain s) : ∃ t, exec i s = .next t := by
  cases h : exec i s with
  | next t => exact ⟨t, rfl⟩
  | fault r => cases r
  | refused r =>
    obtain ⟨-, hfinite⟩ := exec_stopsByName i s r h
    exact absurd hs hfinite

/-- Every one of the 2^32 words has its outcome (R192). -/
theorem runWord_answers (w : Word) {s : State} (hs : DefaultDomain s) : ∃ t, runWord w s = .next t := by
  unfold runWord
  split
  next i _ => exact exec_answers i hs
  next => exact ⟨_, raise_illegalCommand s⟩

/-- Settles O12: waiting and a reset always answer, and a word does because taking it keeps the parameters. -/
theorem everyStepAnswersInTheDefaultDomain : Obligations.EveryStepAnswersInTheDefaultDomain := by
  intro s hs
  have htaken : DefaultDomain s.taken := hs
  unfold step
  split
  next => exact ⟨s, rfl⟩
  next => exact ⟨s.taken.afterReset, rfl⟩
  next w _ => exact runWord_answers w htaken

end Sys2Proof.Machine
end

section
/-! SUPPORT. The codes a command completes with: those of its row of R234, and what the codes by which a command is
turned away leave behind (R216, R223, R224). -/

namespace Sys2Proof.Machine

section Codes

variable {s u : State} {i : Instr} {c : Status} {x : Bool}

/-- There is always room to flush, STREAM_CAP being a multiple of 8 when finite (R9, R33, R116). -/
theorem State.Inv.roomFor_padLength (hs : s.Inv) : s.roomFor (padLength s.slen) = true := by
  obtain ⟨-, hbytes⟩ := hs.params
  obtain ⟨-, hslen⟩ := hs.stream
  exact State.roomFor_iff.2 fun cap hcap => add_padLength_le (hslen cap hcap) (hbytes cap hcap)

/-- The invariant is needed for BS.FLUSH alone, whose row of R234 is empty. -/
theorem Effect.code_possible (h : Effect s i u c x) (hs : s.Inv) : c = .ok ∨ c ∈ possibleCodes i := by
  cases h with
  | stopped hcode => exact .inr hcode
  | bsFlushFull hfull => exact absurd hs.roomFor_padLength hfull
  | bsRbitsCut | rcDecCut => exact .inr (by simp [possibleCodes])
  | plEnc _ hcode | plDec _ hcode => exact hcode.imp And.left fun ⟨hstop, _⟩ => by simp [hstop, possibleCodes]
  | _ => exact .inl rfl

/-- A command that has done something completes OK, or the stream has ended or is full (R218, R220, R222). -/
theorem Effect.unchanged_or_code (h : Effect s i u c x) :
    u = s ∨ c = .ok ∨ c = .incompleteStream ∨ c = .endOfStream ∨ c = .streamFull := by
  cases h with
  | stopped | bsFlushFull => exact .inl rfl
  | bsRbitsCut => exact .inr (.inr (.inr (.inl rfl)))
  | rcDecCut => exact .inr (.inr (.inl rfl))
  | plEnc _ hcode => exact .inr (hcode.imp And.left fun ⟨hfull, _⟩ => .inr (.inr hfull))
  | plDec _ hcode => exact .inr (hcode.imp And.left fun ⟨hcut, _⟩ => .inl hcut)
  | _ => exact .inr (.inl rfl)

end Codes

/-- Completing with a code that is neither OK nor IncompleteStream clears MIDSYM and sets the code's sticky bit
(R215). -/
theorem State.complete_of_error {c : Status} (hok : c ≠ .ok) (hcut : c ≠ .incompleteStream) (s : State) (x : Bool) :
    s.complete c x = { s with last := c, midsym := false, errs := s.errs ||| BitVec.ofNat 8 (2 ^ c.code) } := by
  rw [State.complete, midsymAfter, decide_eq_false hcut, Bool.false_and, errsAfter, if_neg hok]

/-- Settles O15: by the command's effect, BS.FLUSH always having room. -/
theorem codesEachCommandCanCompleteWith : Obligations.CodesEachCommandCanCompleteWith := by
  intro i s t hs h
  obtain ⟨u, c, x, heff, rfl⟩ := exec_next h
  exact heff.code_possible hs

/-- Settles O16: a command that completes with one of the three codes has done nothing before it. -/
theorem refusedCommandsHaveNoEffect : Obligations.RefusedCommandsHaveNoEffect := by
  intro i s t h hcode
  obtain ⟨u, c, x, heff, rfl⟩ := exec_next h
  rw [State.complete_last] at hcode ⊢
  have hok : c ≠ .ok := fun hc => by simp [hc] at hcode
  have hcut : c ≠ .incompleteStream := fun hc => by simp [hc] at hcode
  obtain rfl : u = s := heff.unchanged_or_code.resolve_right fun hdone => by
    obtain rfl | rfl | rfl | rfl := hdone <;> simp at hcode
  exact State.complete_of_error hok hcut u x

end Sys2Proof.Machine
end

section
/-! SUPPORT. The two steps that perform no word: waiting, which changes nothing, and the host's reset, after which every
register and both stores are as in the reset state (R240 to R242). -/

namespace Sys2Proof.Machine

/-- With nothing on the host's list the CORE waits (R241, log 2). -/
theorem step_of_waiting {s : State} (h : s.host = []) : step s = .next s := by
  rw [step, fetch, h]

/-- The reset is taken from the host's list and applied (R240, log 3). -/
theorem step_of_reset {s : State} {rest : List HostEvent} (h : s.host = .reset :: rest) :
    step s = .next { s with host := rest }.afterReset := by
  rw [step, fetch, State.taken, h]
  rfl

/-- No register shows what a reset keeps: the parameters, the number of resets and the host's list (R42, R241). -/
theorem regRead_afterReset (n : Nat) (s : State) : regRead n s.afterReset = regRead n State.reset := rfl

/-- Settles O6. -/
theorem nothingExecutesByItself : Obligations.NothingExecutesByItself :=
  ⟨rfl, fun _ => step_of_waiting⟩

/-- Settles O7: the registers read as in the reset state of O5, and the stores are those of `State.reset`. -/
theorem hostResetLeavesResetState : Obligations.HostResetLeavesResetState := by
  intro s rest hhost
  obtain ⟨hregs, hlast, hmidsym, herrs, hstream, hplane⟩ := resetStateOfTheCore
  exact ⟨{ s with host := rest }.afterReset, step_of_reset hhost,
    fun n => (regRead_afterReset n _).trans (hregs n), hlast, hmidsym, herrs, hstream, hplane, rfl, rfl⟩

end Sys2Proof.Machine
end
